-- ==== Sys2Proof/Word.lean ====
section
/-! DEFINITION. The bit vectors that travel on HCB's ports (spec/00_scope.md R7, R8; spec/10_state.md R15, R19 to R21). -/

namespace Sys2Proof

/-- A command word, format CMD8 (R37). -/
abbrev Cmd := BitVec 8

/-- The first operand port `a` and the result port `y` (R15). -/
abbrev Port64 := BitVec 64

/-- One bit on a port (R15). -/
abbrev Bit := BitVec 1

/-- A half: sign `h[15]`, exponent field `h[14:10]`, mantissa field `h[9:0]` (R19). -/
abbrev Half := BitVec 16

/-- A float32: sign `x[31]`, exponent field `x[30:23]`, mantissa field `x[22:0]` (R20). -/
abbrev Float32Bits := BitVec 32

/-- A float64: sign `x[63]`, exponent field `x[62:52]`, mantissa field `x[51:0]` (R21). -/
abbrev Float64Bits := BitVec 64

end Sys2Proof
end

