-- ==== Sys2Proof/Config.lean ====
section
/-! DEFINITION. The fixed parameters of spec/00_scope.md R7 and the named constants of spec/10_state.md R24.
The open parameter LATENCY is an argument of the definitions of Machine/Latency.lean. -/

namespace Sys2Proof.Config

/-- `NAN_FILL` (R7, R76): the mantissa given to a narrowed NaN whose ten kept mantissa bits are zero.
DESIGN CHOICE of the spec (D7), log entry 5: unsafe against the original software, which may use another nonzero value. -/
def nanFill : BitVec 10 := 0x200

/-- `ILL_Y` (R7, R41): the value of `y` on a reserved command. -/
def illY : Port64 := 0

/-- `H_BIAS` (R7): the exponent bias of a half. -/
def halfBias : Int := 15

/-- `Epsilon` (R24): the smallest positive subnormal, 2^-24. -/
def epsilon : Half := 0x0001

/-- `MaxValue` (R24): the largest finite half, 65504. -/
def maxValue : Half := 0x7BFF

/-- `MinValue` (R24): the most negative finite half, -65504. -/
def minValue : Half := 0xFBFF

/-- `PositiveInfinity` (R24). -/
def positiveInfinity : Half := 0x7C00

/-- `NegativeInfinity` (R24). -/
def negativeInfinity : Half := 0xFC00

/-- `NaN` (R24, corrected by C1): sign 1, quiet flag 1, payload 0. -/
def nan : Half := 0xFE00

/-- `PositiveZero` (R24). -/
def positiveZero : Half := 0x0000

/-- `NegativeZero` (R24). -/
def negativeZero : Half := 0x8000

end Sys2Proof.Config
end

