-- ==== Sys2Proof/Machine/State.lean ====
section
/-! DEFINITION. The state: the level on each of HCB's five ports (spec/10_state.md R15) and nothing else, because HCB has
no architectural state (R13 to R18, R26). Plain data. -/

namespace Sys2Proof.Machine

/-- One sample of the three input ports, all bits taken together (R15, R34). -/
structure Inputs where
  cmd : Cmd
  a   : Port64
  b   : Half
  deriving DecidableEq, Repr

/-- What a transaction yields on the two output ports (R15). -/
structure Outputs where
  y   : Port64
  ill : Bit
  deriving DecidableEq, Repr

/-- The level on each port (R15; log entry 1): `cmd`, `a`, `b` as the host drives them, `y` and `ill` as the last transaction
left them. -/
structure State where
  cmd : Cmd
  a   : Port64
  b   : Half
  y   : Port64
  ill : Bit
  deriving DecidableEq, Repr

/-- HCB has no fault, trap or exception (R101, R106): the type has no constructor, so no step can end in one. -/
inductive Fault where
  deriving DecidableEq, Repr

/-- Why an instruction has no meaning. -/
inductive Refusal where
  /-- Raised by `exec` only, for an instruction with no meaning yet (safe). No arm raises it: all 26 have their meaning. -/
  | notModelled (mnemonic : String)
  deriving DecidableEq, Repr

/-- The input ports of a state. -/
def State.inputs (s : State) : Inputs := ⟨s.cmd, s.a, s.b⟩

/-- The output ports of a state. -/
def State.outputs (s : State) : Outputs := ⟨s.y, s.ill⟩

/-- The state a run starts from. HCB has no reset (R26, R109). DESIGN CHOICE, log entry 2: every input port at zero (unsafe),
and the outputs at what exec(0x00, 0, 0) gives, since "the outputs are defined by the present inputs alone" (R109). -/
def State.reset : State := { cmd := 0, a := 0, b := 0, y := 0, ill := 0 }

end Sys2Proof.Machine
end

