-- ==== Sys2Proof/Machine/Flags.lean ====
section
/-! DEFINITION. HCB has no flag and no condition code (spec/10_state.md R16, spec/60_exceptions.md R102). The one status
output is `ill` (R104). -/

namespace Sys2Proof.Machine

/-- `ill` on one of the 26 defined command words (R104). -/
def illDefined : Bit := 0

/-- `ill` on a reserved command word (R41, R104). -/
def illReserved : Bit := 1

end Sys2Proof.Machine
end

