-- ==== Sys2Proof/Syntax.lean ====
section
/-! DEFINITION. The 26 operations of spec/30_encoding.md R40, the names of their operand and result forms (R38, R39), and
the written form of a transaction (R43). No operation has an operand field: operands arrive on the ports (R37). -/

namespace Sys2Proof

/-- One constructor per row of spec/opcode_table.json, in the table's order. -/
inductive Instr where
  /-- `HSIGN`, 0x00: sign bit (R50). -/
  | hsign
  /-- `HEXPF`, 0x01: exponent field (R51). -/
  | hexpf
  /-- `HMANT`, 0x02: mantissa field (R52). -/
  | hmant
  /-- `HEXPU`, 0x03: unbiased exponent (R54). -/
  | hexpu
  /-- `HSIGNIF`, 0x04: significand with implicit bit (R55). -/
  | hsignif
  /-- `HQUIET`, 0x05: NaN quiet flag bit (R56). -/
  | hquiet
  /-- `HPAYLD`, 0x06: NaN payload bits (R57). -/
  | hpayld
  /-- `HCLASS`, 0x10: class code (R58). -/
  | hclass
  /-- `HISNAN`, 0x11: is NaN (R59). -/
  | hisnan
  /-- `HISINF`, 0x12: is infinity (R60). -/
  | hisinf
  /-- `HISFIN`, 0x13: is finite (R61). -/
  | hisfin
  /-- `HISNEG`, 0x14: sign bit set (R62). -/
  | hisneg
  /-- `HISNORM`, 0x15: is normal (R63). -/
  | hisnorm
  /-- `HISSUB`, 0x16: is subnormal (R64). -/
  | hissub
  /-- `HWID.S`, 0x20: half to float32 (R72). -/
  | hwidS
  /-- `HWID.D`, 0x21: half to float64 (R73). -/
  | hwidD
  /-- `HNAR.S`, 0x30: float32 to half (R83). -/
  | hnarS
  /-- `HNAR.D`, 0x31: float64 to half (R84). -/
  | hnarD
  /-- `HEQ`, 0x40: IEEE `a == b` (R88). -/
  | heq
  /-- `HNE`, 0x41: IEEE `a != b` (R89). -/
  | hne
  /-- `HLT`, 0x42: IEEE `a < b` (R90). -/
  | hlt
  /-- `HLE`, 0x43: IEEE `a <= b` (R91). -/
  | hle
  /-- `HGT`, 0x44: IEEE `a > b` (R92). -/
  | hgt
  /-- `HGE`, 0x45: IEEE `a >= b` (R93). -/
  | hge
  /-- `HTOT`, 0x46: total-order three-way compare (R95). -/
  | htot
  /-- `HEQV`, 0x47: value-equality (R98). -/
  | heqv
  deriving DecidableEq, Repr

/-- Which input bits an operation reads (R38). -/
inductive OperandForm where
  /-- `a[15:0]` as a half. -/
  | H
  /-- `a[31:0]` as a float32. -/
  | S
  /-- `a[63:0]` as a float64. -/
  | D
  /-- `a[15:0]` and `b[15:0]`, each as a half. -/
  | HH
  deriving DecidableEq, Repr

/-- How an operation puts its result on `y` (R39). -/
inductive ResultForm where
  /-- Truth value or single bit. -/
  | U1
  /-- Class code. -/
  | U4
  /-- Exponent field. -/
  | U5
  /-- NaN payload. -/
  | U9
  /-- Mantissa field. -/
  | U10
  /-- Significand. -/
  | U11
  /-- Signed integer, sign-extended to 64 bits. -/
  | I
  /-- A half. -/
  | H16
  /-- A float32. -/
  | S32
  /-- A float64. -/
  | D64
  deriving DecidableEq, Repr

/-- The left side of a transaction as R43 writes it, `MNEMONIC a[, b]`: the operation and its operand values in order. -/
structure Written where
  op       : Instr
  operands : List Nat
  deriving DecidableEq, Repr

end Sys2Proof
end

