-- ==== Sys2Proof/Decode.lean ====
section
/-! DEFINITION. The opcode map of spec/30_encoding.md R40 (its columns as functions), the decoder of a command word
(R37, R41, R45), total and rejecting by name, and the encoder (R37). -/

namespace Sys2Proof

/-- The name of what stands at a reserved command word (R41). -/
inductive Reserved where
  /-- `fn` is reserved in one of the groups 0 to 4. -/
  | function (grp fn : Nat)
  /-- The group is one of the reserved groups 5 to 15. -/
  | group (grp fn : Nat)
  deriving DecidableEq, Repr

/-- What a command word selects: one of the 26 operations, or nothing (R41). -/
inductive Decoded where
  | op (i : Instr)
  | reserved (r : Reserved)
  deriving DecidableEq, Repr

/-- `cmd[7:4]`, the operation group (R37). -/
def cmdGrp (w : Cmd) : BitVec 4 := w.extractLsb' 4 4

/-- `cmd[3:0]`, the function within the group (R37). -/
def cmdFn (w : Cmd) : BitVec 4 := w.extractLsb' 0 4

/-- The name of a command word outside R40's table (R41). -/
def reservedName (w : Cmd) : Reserved :=
  if (cmdGrp w).toNat ≤ 4 then .function (cmdGrp w).toNat (cmdFn w).toNat
  else .group (cmdGrp w).toNat (cmdFn w).toNat

/-- The decoder: all 8 bits are decoded, by the `cmd` column of R40 (R37, R40, R41, R42, R45). -/
def decode (w : Cmd) : Decoded :=
  match w.toNat with
  | 0x00 => .op .hsign
  | 0x01 => .op .hexpf
  | 0x02 => .op .hmant
  | 0x03 => .op .hexpu
  | 0x04 => .op .hsignif
  | 0x05 => .op .hquiet
  | 0x06 => .op .hpayld
  | 0x10 => .op .hclass
  | 0x11 => .op .hisnan
  | 0x12 => .op .hisinf
  | 0x13 => .op .hisfin
  | 0x14 => .op .hisneg
  | 0x15 => .op .hisnorm
  | 0x16 => .op .hissub
  | 0x20 => .op .hwidS
  | 0x21 => .op .hwidD
  | 0x30 => .op .hnarS
  | 0x31 => .op .hnarD
  | 0x40 => .op .heq
  | 0x41 => .op .hne
  | 0x42 => .op .hlt
  | 0x43 => .op .hle
  | 0x44 => .op .hgt
  | 0x45 => .op .hge
  | 0x46 => .op .htot
  | 0x47 => .op .heqv
  | _ => .reserved (reservedName w)

/-- The `grp` column of R40. -/
def Instr.grp : Instr → BitVec 4
  | .hsign | .hexpf | .hmant | .hexpu | .hsignif | .hquiet | .hpayld => 0
  | .hclass | .hisnan | .hisinf | .hisfin | .hisneg | .hisnorm | .hissub => 1
  | .hwidS | .hwidD => 2
  | .hnarS | .hnarD => 3
  | .heq | .hne | .hlt | .hle | .hgt | .hge | .htot | .heqv => 4

/-- The `fn` column of R40. -/
def Instr.fn : Instr → BitVec 4
  | .hsign => 0 | .hexpf => 1 | .hmant => 2 | .hexpu => 3 | .hsignif => 4 | .hquiet => 5 | .hpayld => 6
  | .hclass => 0 | .hisnan => 1 | .hisinf => 2 | .hisfin => 3 | .hisneg => 4 | .hisnorm => 5 | .hissub => 6
  | .hwidS => 0 | .hwidD => 1
  | .hnarS => 0 | .hnarD => 1
  | .heq => 0 | .hne => 1 | .hlt => 2 | .hle => 3 | .hgt => 4 | .hge => 5 | .htot => 6 | .heqv => 7

/-- The encoder: the command word of an operation is its group nibble above its function nibble (R37). -/
def encode (i : Instr) : Cmd := i.grp ++ i.fn

/-- The `operands` column of R40. -/
def Instr.operandForm : Instr → OperandForm
  | .hsign | .hexpf | .hmant | .hexpu | .hsignif | .hquiet | .hpayld => .H
  | .hclass | .hisnan | .hisinf | .hisfin | .hisneg | .hisnorm | .hissub => .H
  | .hwidS | .hwidD => .H
  | .hnarS => .S
  | .hnarD => .D
  | .heq | .hne | .hlt | .hle | .hgt | .hge | .htot | .heqv => .HH

/-- The `result` column of R40. -/
def Instr.resultForm : Instr → ResultForm
  | .hsign => .U1 | .hexpf => .U5 | .hmant => .U10 | .hexpu => .I | .hsignif => .U11 | .hquiet => .U1 | .hpayld => .U9
  | .hclass => .U4 | .hisnan => .U1 | .hisinf => .U1 | .hisfin => .U1 | .hisneg => .U1 | .hisnorm => .U1 | .hissub => .U1
  | .hwidS => .S32 | .hwidD => .D64
  | .hnarS => .H16 | .hnarD => .H16
  | .heq => .U1 | .hne => .U1 | .hlt => .U1 | .hle => .U1 | .hgt => .U1 | .hge => .U1 | .htot => .I | .heqv => .U1

/-- The widths of the operand values an operand form reads, left operand first (R38, R43). -/
def OperandForm.widths : OperandForm → List Nat
  | .H => [16]
  | .S => [32]
  | .D => [64]
  | .HH => [16, 16]

/-- The `width` column of R39. -/
def ResultForm.width : ResultForm → Nat
  | .U1 => 1
  | .U4 => 4
  | .U5 => 5
  | .U9 => 9
  | .U10 => 10
  | .U11 => 11
  | .I => 64
  | .H16 => 16
  | .S32 => 32
  | .D64 => 64

/-- The instruction the decoder reads from a table word of `nbits` bits: a command is one byte (R42), so the word's low
`nbits` bits are the byte on `cmd`; a value that does not fit one byte is no command word (log entry 10). -/
def decodeTableWord (nbits w : Nat) : Option Instr :=
  if w % 2 ^ nbits < 256 then
    match decode (BitVec.ofNat 8 (w % 2 ^ nbits)) with
    | .op i => some i
    | .reserved _ => none
  else none

end Sys2Proof
end

