-- ==== Sys2Proof/Machine/Operands.lean ====
section
/-! DEFINITION. The four operand forms (spec/30_encoding.md R38) and the result forms (R39) over the ports. -/

namespace Sys2Proof.Machine

/-- Forms H and HH, left operand: `a[15:0]` as a half (R38). -/
def operandH (a : Port64) : Half := a.extractLsb' 0 16

/-- Form S: `a[31:0]` as a float32 (R38). -/
def operandS (a : Port64) : Float32Bits := a.extractLsb' 0 32

/-- Form D: `a[63:0]` as a float64 (R38). -/
def operandD (a : Port64) : Float64Bits := a

/-- Form HH, right operand: `b[15:0]` as a half (R38). -/
def operandB (b : Half) : Half := b

/-- An unsigned result of width `n` on `y`: `zext_64` (R9, R39). -/
def zext64 {n : Nat} (v : BitVec n) : Port64 := v.setWidth 64

/-- A truth value on `y`: exactly 0 or 1 (R39). -/
def truth64 (t : Bool) : Port64 := zext64 (BitVec.ofBool t)

/-- A signed result on `y`: `sext_64` of the integer (R9, R39). -/
def sext64 (n : Int) : Port64 := BitVec.ofInt 64 n

/-- The operand values of a written transaction (R43) placed on `a` and `b`: the first right-aligned on `a`, the second on
`b`; a port that no operand reaches is driven to zero. -/
def portsOf (operands : List Nat) : Port64 × Half :=
  match operands with
  | [] => (0, 0)
  | [v] => (BitVec.ofNat 64 v, 0)
  | v :: v' :: _ => (BitVec.ofNat 64 v, BitVec.ofNat 16 v')

/-- The operand values an operand form reads from `a` and `b`, left operand first (R38, R43). -/
def operandsOf (f : OperandForm) (a : Port64) (b : Half) : List Nat :=
  match f with
  | .H => [(operandH a).toNat]
  | .S => [(operandS a).toNat]
  | .D => [(operandD a).toNat]
  | .HH => [(operandH a).toNat, (operandB b).toNat]

end Sys2Proof.Machine
end

