-- ==== Sys2Proof/Machine/Ops.lean ====
section
/-! DEFINITION. The shared operations over the ports. HCB has no memory operation (spec/20_memory.md R31), no register file
(R13) and no exception to take or return from (spec/60_exceptions.md R101, R106); what takes their place is the answer to a
reserved command (R41, R104). -/

namespace Sys2Proof.Machine

/-- Both outputs written once, the inputs left as the host drives them (R10, R15). -/
def State.respond (s : State) (o : Outputs) : State := { s with y := o.y, ill := o.ill }

/-- The end of a defined operation: its result on `y`, `ill` low (R39, R104). -/
def answer (y : Port64) (s : State) : Host.Outcome State Fault Refusal := .next (s.respond ⟨y, illDefined⟩)

/-- A reserved command: `y = ILL_Y`, `ill = 1`, whatever `a` and `b` hold; nothing saved, nothing redirected (R41, R104;
log entry 4). -/
def answerReserved (s : State) : Host.Outcome State Fault Refusal := .next (s.respond ⟨Config.illY, illReserved⟩)

/-- The host drives the three input ports, all together (R34, R112); the outputs stay as they were until the next step (log
entry 3). -/
def State.drive (s : State) (i : Inputs) : State := { s with cmd := i.cmd, a := i.a, b := i.b }

end Sys2Proof.Machine
end

