-- ==== Sys2Proof/Machine/BitModel.lean ====
section
/-! DEFINITION. Group 0, field extraction (spec/40_bitmodel.md R49 to R57): the decomposition of a half and the seven
operations that return a field or a quantity derived from the fields. -/

namespace Sys2Proof.Machine

/-- `sign(h) = h[15]` (R49). -/
def sign (h : Half) : Bit := h.extractLsb' 15 1

/-- `expf(h) = h[14:10]`, the biased exponent field (R49). -/
def expf (h : Half) : BitVec 5 := h.extractLsb' 10 5

/-- `mant(h) = h[9:0]`, the mantissa field without the implicit bit (R49). -/
def mant (h : Half) : BitVec 10 := h.extractLsb' 0 10

/-- The integer `e` of R49. -/
def expNat (h : Half) : Nat := (expf h).toNat

/-- The integer `m` of R49. -/
def mantNat (h : Half) : Nat := (mant h).toNat

/-- The unbiased exponent (R54): -14 when the field is 0, else the field less the bias, in every category (D8). -/
def expu (h : Half) : Int := if expNat h = 0 then -14 else (expNat h : Int) - Config.halfBias

/-- The implicit leading bit (R55): 1 for a normal, else 0 (D8 for infinities and NaNs). -/
def hiddenBit (h : Half) : Bit := if 1 ≤ expNat h ∧ expNat h ≤ 30 then 1 else 0

/-- The significand with the implicit bit in front, 11 bits (R55). -/
def signif (h : Half) : BitVec 11 := hiddenBit h ++ mant h

/-- `h[9]`: the quiet flag when `h` is a NaN; not gated by the class (R56, D8). -/
def quiet (h : Half) : Bit := h.extractLsb' 9 1

/-- `h[8:0]`: the payload when `h` is a NaN; not gated by the class (R57, D8). -/
def payload (h : Half) : BitVec 9 := h.extractLsb' 0 9

/-- HSIGN (R50). -/
def execHsign (s : State) : Host.Outcome State Fault Refusal := answer (zext64 (sign (operandH s.a))) s

/-- HEXPF (R51). -/
def execHexpf (s : State) : Host.Outcome State Fault Refusal := answer (zext64 (expf (operandH s.a))) s

/-- HMANT (R52). -/
def execHmant (s : State) : Host.Outcome State Fault Refusal := answer (zext64 (mant (operandH s.a))) s

/-- HEXPU (R54). -/
def execHexpu (s : State) : Host.Outcome State Fault Refusal := answer (sext64 (expu (operandH s.a))) s

/-- HSIGNIF (R55). -/
def execHsignif (s : State) : Host.Outcome State Fault Refusal := answer (zext64 (signif (operandH s.a))) s

/-- HQUIET (R56). -/
def execHquiet (s : State) : Host.Outcome State Fault Refusal := answer (zext64 (quiet (operandH s.a))) s

/-- HPAYLD (R57). -/
def execHpayld (s : State) : Host.Outcome State Fault Refusal := answer (zext64 (payload (operandH s.a))) s

end Sys2Proof.Machine
end

