-- ==== Sys2Proof/Machine/Classify.lean ====
section
/-! DEFINITION. Group 1, classification (spec/40_bitmodel.md R58 to R66): the nine-way class and the six predicates. -/

namespace Sys2Proof.Machine

/-- The nine classes, in the order R58 lists them. -/
inductive HalfClass where
  | posInf | negInf | nan | posZero | negZero | posSubnormal | negSubnormal | posNormal | negNormal
  deriving DecidableEq, Repr

/-- `isNaN(h) = (e = 31 and m != 0)` (R59). -/
def isNaN (h : Half) : Bool := expNat h = 31 && mantNat h ≠ 0

/-- `isInf(h) = (e = 31 and m = 0)` (R60). -/
def isInf (h : Half) : Bool := expNat h = 31 && mantNat h = 0

/-- `isFinite(h) = not isNaN(h) and not isInf(h)` (R61). -/
def isFinite (h : Half) : Bool := !isNaN h && !isInf h

/-- `isNegative(h) = (h[15] = 1)`: a test of the bit, not of the value (R62). -/
def isNegative (h : Half) : Bool := sign h = 1

/-- `isNormal(h) = (1 <= e <= 30)` (R63). -/
def isNormal (h : Half) : Bool := 1 ≤ expNat h && expNat h ≤ 30

/-- `isSubnormal(h) = (e = 0 and m != 0)` (R64). -/
def isSubnormal (h : Half) : Bool := expNat h = 0 && mantNat h ≠ 0

/-- `isZero(h) = (e = 0 and m = 0)`, a helper with no command of its own (R65). -/
def isZero (h : Half) : Bool := expNat h = 0 && mantNat h = 0

/-- The class of a half (R58, R22): one NaN class for both signs and for quiet and signaling. -/
def classOf (h : Half) : HalfClass :=
  if expNat h = 31 then
    if mantNat h ≠ 0 then .nan else if isNegative h then .negInf else .posInf
  else if expNat h = 0 then
    if mantNat h = 0 then (if isNegative h then .negZero else .posZero)
    else if isNegative h then .negSubnormal else .posSubnormal
  else if isNegative h then .negNormal else .posNormal

/-- The 4-bit code of a class (R58, D9). -/
def classCode : HalfClass → BitVec 4
  | .posInf => 0
  | .negInf => 1
  | .nan => 2
  | .posZero => 3
  | .negZero => 4
  | .posSubnormal => 5
  | .negSubnormal => 6
  | .posNormal => 7
  | .negNormal => 8

/-- HCLASS (R58). -/
def execHclass (s : State) : Host.Outcome State Fault Refusal := answer (zext64 (classCode (classOf (operandH s.a)))) s

/-- HISNAN (R59). -/
def execHisnan (s : State) : Host.Outcome State Fault Refusal := answer (truth64 (isNaN (operandH s.a))) s

/-- HISINF (R60). -/
def execHisinf (s : State) : Host.Outcome State Fault Refusal := answer (truth64 (isInf (operandH s.a))) s

/-- HISFIN (R61). -/
def execHisfin (s : State) : Host.Outcome State Fault Refusal := answer (truth64 (isFinite (operandH s.a))) s

/-- HISNEG (R62). -/
def execHisneg (s : State) : Host.Outcome State Fault Refusal := answer (truth64 (isNegative (operandH s.a))) s

/-- HISNORM (R63). -/
def execHisnorm (s : State) : Host.Outcome State Fault Refusal := answer (truth64 (isNormal (operandH s.a))) s

/-- HISSUB (R64). -/
def execHissub (s : State) : Host.Outcome State Fault Refusal := answer (truth64 (isSubnormal (operandH s.a))) s

end Sys2Proof.Machine
end

