-- ==== Sys2Proof/Machine/Compare.lean ====
section
/-! DEFINITION. Group 4, the comparator (spec/43_comparator.md R87 to R99): the six IEEE operators, the three-way total
order and value-equality, on the left operand `p = a[15:0]` and the right operand `q = b`. -/

namespace Sys2Proof.Machine

/-- `mag(h) = u(h[14:0])` (R87). -/
def mag (h : Half) : Nat := (h.extractLsb' 0 15).toNat

/-- The value key (R87): both zeros give 0. -/
def vkey (h : Half) : Int := if isNegative h then -(mag h : Int) else mag h

/-- The total key (R87): negative zero gives -1, positive zero 0. -/
def tkey (h : Half) : Int := if isNegative h then -1 - (mag h : Int) else mag h

/-- The rank in the total order (R94): one rank for all NaNs, below everything. -/
def rank (h : Half) : Int := if isNaN h then -0x7C02 else tkey h

/-- IEEE `p == q` (R88). -/
def ieeeEq (p q : Half) : Bool := !isNaN p && !isNaN q && vkey p = vkey q

/-- IEEE `p != q` (R89): the negation of `==`, so true of a NaN (D12, log entry 8). -/
def ieeeNe (p q : Half) : Bool := !ieeeEq p q

/-- IEEE `p < q` (R90). -/
def ieeeLt (p q : Half) : Bool := !isNaN p && !isNaN q && vkey p < vkey q

/-- IEEE `p <= q` (R91). -/
def ieeeLe (p q : Half) : Bool := !isNaN p && !isNaN q && vkey p ≤ vkey q

/-- IEEE `p > q` (R92). -/
def ieeeGt (p q : Half) : Bool := ieeeLt q p

/-- IEEE `p >= q` (R93). -/
def ieeeGe (p q : Half) : Bool := ieeeLe q p

/-- The three-way total-order comparison (R95). -/
def totalCmp (p q : Half) : Int := if rank p < rank q then -1 else if rank p = rank q then 0 else 1

/-- Value-equality (R98): both NaN, or IEEE-equal; not `totalCmp p q = 0` (C4). -/
def valueEq (p q : Half) : Bool := (isNaN p && isNaN q) || ieeeEq p q

/-- HEQ (R88). -/
def execHeq (s : State) : Host.Outcome State Fault Refusal := answer (truth64 (ieeeEq (operandH s.a) (operandB s.b))) s

/-- HNE (R89). -/
def execHne (s : State) : Host.Outcome State Fault Refusal := answer (truth64 (ieeeNe (operandH s.a) (operandB s.b))) s

/-- HLT (R90). -/
def execHlt (s : State) : Host.Outcome State Fault Refusal := answer (truth64 (ieeeLt (operandH s.a) (operandB s.b))) s

/-- HLE (R91). -/
def execHle (s : State) : Host.Outcome State Fault Refusal := answer (truth64 (ieeeLe (operandH s.a) (operandB s.b))) s

/-- HGT (R92). -/
def execHgt (s : State) : Host.Outcome State Fault Refusal := answer (truth64 (ieeeGt (operandH s.a) (operandB s.b))) s

/-- HGE (R93). -/
def execHge (s : State) : Host.Outcome State Fault Refusal := answer (truth64 (ieeeGe (operandH s.a) (operandB s.b))) s

/-- HTOT (R95). -/
def execHtot (s : State) : Host.Outcome State Fault Refusal := answer (sext64 (totalCmp (operandH s.a) (operandB s.b))) s

/-- HEQV (R98). -/
def execHeqv (s : State) : Host.Outcome State Fault Refusal := answer (truth64 (valueEq (operandH s.a) (operandB s.b))) s

end Sys2Proof.Machine
end

