-- ==== Sys2Proof/Machine/Widen.lean ====
section
/-! DEFINITION. Group 2, the widening converter (spec/41_widening.md R67 to R74). Both operations are one function at two
parameter settings, the target's exponent and mantissa widths: (8, 23) for float32 and (11, 52) for float64. -/

namespace Sys2Proof.Machine

/-- `bitlen(n)` for `n >= 1`: the position of the highest set bit plus one (R9). -/
def bitlen (n : Nat) : Nat := n.log2 + 1

/-- The exponent bias of a format with an `ew`-bit exponent field (R67, R75). -/
def biasOf (ew : Nat) : Nat := 2 ^ (ew - 1) - 1

/-- The all-ones exponent field (R67, R75). -/
def onesOf (ew : Nat) : Nat := 2 ^ ew - 1

/-- A value of the wide format from its sign, exponent field and mantissa field, sign highest (R20, R21, R67). -/
def packWide (ew mw : Nat) (s : Bit) (e m : Nat) : BitVec (1 + ew + mw) := s ++ BitVec.ofNat ew e ++ BitVec.ofNat mw m

/-- The left shift that brings the leading 1 of a subnormal's mantissa to bit 10, 1 to 10 (R69). -/
def normShift (m : Nat) : Nat := 11 - bitlen m

/-- `widen` (R67): exact, in four cases. -/
def widen (ew mw : Nat) (h : Half) : BitVec (1 + ew + mw) :=
  let s := sign h
  let e := expNat h
  let m := mantNat h
  let sh := mw - 10
  if e = 31 then packWide ew mw s (onesOf ew) (m <<< sh)                  -- R70
  else if e = 0 then
    if m = 0 then packWide ew mw s 0 0                                    -- R68
    else                                                                  -- R69
      let k := normShift m
      let frac := (m <<< k) - 1024
      let trueExp : Int := -14 - k
      packWide ew mw s (trueExp + biasOf ew).toNat (frac <<< sh)
  else packWide ew mw s ((e : Int) - Config.halfBias + biasOf ew).toNat (m <<< sh)   -- R71

/-- `widen(h, 8, 23)`, to float32 (R72). -/
def widenS (h : Half) : Float32Bits := widen 8 23 h

/-- `widen(h, 11, 52)`, to float64 (R73). -/
def widenD (h : Half) : Float64Bits := widen 11 52 h

/-- HWID.S (R72). -/
def execHwidS (s : State) : Host.Outcome State Fault Refusal := answer (zext64 (widenS (operandH s.a))) s

/-- HWID.D (R73). -/
def execHwidD (s : State) : Host.Outcome State Fault Refusal := answer (zext64 (widenD (operandH s.a))) s

end Sys2Proof.Machine
end

