-- ==== Sys2Proof/Machine/Narrow.lean ====
section
/-! DEFINITION. Group 3, the narrowing converter (spec/42_narrowing.md R75 to R86): round to nearest, ties to even, one
rounding, subnormal results in full, saturation to infinity. Both operations are one function at the source's exponent and
mantissa widths, (8, 23) and (11, 52). -/

namespace Sys2Proof.Machine

/-- A half from its sign and its low 15 bits (R79). -/
def packHalf (s : Bit) (bits : Nat) : Half := s ++ BitVec.ofNat 15 bits

/-- The signed infinity, `{ s, 5'b11111, 10'b0 }` (R77). -/
def infHalf (s : Bit) : Half := packHalf s 0x7C00

/-- The signed zero, `{ s, 15'b0 }` (R78). -/
def zeroHalf (s : Bit) : Half := packHalf s 0

/-- `narrow_nan` (R76), for any filling mantissa: the top ten bits of the source mantissa, with `fill` in their place when
they are all zero; the quiet flag is inherited, not forced (D14, log entry 6). -/
def narrowNaNWith (fill : BitVec 10) (mw : Nat) (s : Bit) (m : Nat) : Half :=
  let t := m >>> (mw - 10)
  s ++ (31 : BitVec 5) ++ (if t = 0 then fill else BitVec.ofNat 10 t)

/-- The number of low bits of the significand that are discarded (R79): `mw - 10` in the normal range, and the exponent
deficit more in the subnormal range. -/
def roundShift (mw : Nat) (trueExp : Int) : Nat :=
  if -14 ≤ trueExp then mw - 10 else (mw - 10) + (-14 - trueExp).toNat

/-- The exponent field less one, in place (R79): the implicit bit of the retained bits supplies the last one. -/
def roundBase (trueExp : Int) : Nat := if -14 ≤ trueExp then (trueExp + 14).toNat <<< 10 else 0

/-- The rounding increment (R79): up past half a unit of the last retained place, and at exactly half when the retained bits
are odd. -/
def roundUp (sig shift : Nat) : Nat :=
  let kept := sig >>> shift
  let rem := sig &&& ((1 <<< shift) - 1)
  let half := 1 <<< (shift - 1)
  if half < rem ∨ (rem = half ∧ kept % 2 = 1) then 1 else 0

/-- The low 15 bits of a rounded result, `base + kept + up` (R79). -/
def roundBits (mw : Nat) (trueExp : Int) (sig : Nat) : Nat :=
  roundBase trueExp + (sig >>> roundShift mw trueExp) + roundUp sig (roundShift mw trueExp)

/-- `round_pack` (R79): saturation above exponent 15 (R81), signed zero below exponent -25 (R80), else one rounding. -/
def roundPack (mw : Nat) (s : Bit) (trueExp : Int) (sig : Nat) : Half :=
  if 15 < trueExp then infHalf s
  else if trueExp < -25 then zeroHalf s
  else packHalf s (roundBits mw trueExp sig)

/-- The sign bit of a wide value (R20, R21). -/
def wideSign {ew mw : Nat} (x : BitVec (1 + ew + mw)) : Bit := x.extractLsb' (ew + mw) 1

/-- The exponent field of a wide value (R20, R21). -/
def wideExp {ew mw : Nat} (x : BitVec (1 + ew + mw)) : Nat := (x.extractLsb' mw ew).toNat

/-- The mantissa field of a wide value (R20, R21). -/
def wideMant {ew mw : Nat} (x : BitVec (1 + ew + mw)) : Nat := (x.extractLsb' 0 mw).toNat

/-- `narrow` (R75), for any filling mantissa. -/
def narrowWith (fill : BitVec 10) (ew mw : Nat) (x : BitVec (1 + ew + mw)) : Half :=
  let s := wideSign x
  let e := wideExp x
  let m := wideMant x
  if e = onesOf ew ∧ m ≠ 0 then narrowNaNWith fill mw s m     -- R76
  else if e = onesOf ew then infHalf s                        -- R77
  else if e = 0 then zeroHalf s                               -- R78
  else roundPack mw s ((e : Int) - biasOf ew) (2 ^ mw + m)    -- R79

/-- `narrow` from float32 for any filling mantissa (U1). -/
def narrowSWith (fill : BitVec 10) (x : Float32Bits) : Half := narrowWith fill 8 23 x

/-- `narrow` from float64 for any filling mantissa (U1). -/
def narrowDWith (fill : BitVec 10) (x : Float64Bits) : Half := narrowWith fill 11 52 x

/-- `narrow(x, 8, 23)` with the spec's `NAN_FILL` (R76, R83). -/
def narrowS (x : Float32Bits) : Half := narrowSWith Config.nanFill x

/-- `narrow(x, 11, 52)` with the spec's `NAN_FILL` (R76, R84). -/
def narrowD (x : Float64Bits) : Half := narrowDWith Config.nanFill x

/-- HNAR.S (R83). -/
def execHnarS (s : State) : Host.Outcome State Fault Refusal := answer (zext64 (narrowS (operandS s.a))) s

/-- HNAR.D (R84). -/
def execHnarD (s : State) : Host.Outcome State Fault Refusal := answer (zext64 (narrowD (operandD s.a))) s

end Sys2Proof.Machine
end

