-- ==== Sys2Proof/Machine/Dispatch.lean ====
section
/-! DEFINITION. One arm per operation of spec/30_encoding.md R40, each one call of its meaning (R45). -/

namespace Sys2Proof.Machine

def exec (i : Instr) (s : State) : Host.Outcome State Fault Refusal :=
  match i with
  | .hsign => Sys2Proof.Machine.execHsign s
  | .hexpf => Sys2Proof.Machine.execHexpf s
  | .hmant => Sys2Proof.Machine.execHmant s
  | .hexpu => Sys2Proof.Machine.execHexpu s
  | .hsignif => Sys2Proof.Machine.execHsignif s
  | .hquiet => Sys2Proof.Machine.execHquiet s
  | .hpayld => Sys2Proof.Machine.execHpayld s
  | .hclass => Sys2Proof.Machine.execHclass s
  | .hisnan => Sys2Proof.Machine.execHisnan s
  | .hisinf => Sys2Proof.Machine.execHisinf s
  | .hisfin => Sys2Proof.Machine.execHisfin s
  | .hisneg => Sys2Proof.Machine.execHisneg s
  | .hisnorm => Sys2Proof.Machine.execHisnorm s
  | .hissub => Sys2Proof.Machine.execHissub s
  | .hwidS => Sys2Proof.Machine.execHwidS s
  | .hwidD => Sys2Proof.Machine.execHwidD s
  | .hnarS => Sys2Proof.Machine.execHnarS s
  | .hnarD => Sys2Proof.Machine.execHnarD s
  | .heq => Sys2Proof.Machine.execHeq s
  | .hne => Sys2Proof.Machine.execHne s
  | .hlt => Sys2Proof.Machine.execHlt s
  | .hle => Sys2Proof.Machine.execHle s
  | .hgt => Sys2Proof.Machine.execHgt s
  | .hge => Sys2Proof.Machine.execHge s
  | .htot => Sys2Proof.Machine.execHtot s
  | .heqv => Sys2Proof.Machine.execHeqv s

end Sys2Proof.Machine
end

