-- ==== Sys2Proof/Machine/Step.lean ====
section
/-! DEFINITION. One step is one transaction (spec/00_scope.md R6, spec/10_state.md R15, spec/30_encoding.md R45): the command
on `cmd` is decoded, its operation runs on `a` and `b`, and both outputs are written. Nothing is fetched (R14). -/

namespace Sys2Proof.Machine

/-- One transaction on the inputs as they stand; `ill` is decided before any operand is looked at, and a reserved command
evaluates no operation (R45, R106). -/
def step (s : State) : Host.Outcome State Fault Refusal :=
  match decode s.cmd with
  | .op i => exec i s
  | .reserved _ => answerReserved s

/-- The state with a table word of `nbits` bits where the next step takes its command, the `cmd` port (R14, R37; log entries
3 and 10). -/
def State.withFetchWord (s : State) (nbits w : Nat) : State := { s with cmd := BitVec.ofNat 8 (w % 2 ^ nbits) }

end Sys2Proof.Machine
end

