-- ==== Sys2Proof/Machine/Ports.lean ====
section
/-! DEFINITION. The block as one total function of its three input ports, the case split of spec/30_encoding.md R45 written
out as the spec writes it. `step` does not use it; that the two agree is a statement. -/

namespace Sys2Proof.Machine

/-- `exec(cmd, a, b) = (y, ill)` (R15, R45). -/
def portExec (i : Inputs) : Outputs :=
  let h : Half := i.a.extractLsb' 0 16
  let hb : Half := i.b
  match i.cmd.toNat with
  | 0x00 => ⟨zext64 (sign h), 0⟩
  | 0x01 => ⟨zext64 (expf h), 0⟩
  | 0x02 => ⟨zext64 (mant h), 0⟩
  | 0x03 => ⟨sext64 (expu h), 0⟩
  | 0x04 => ⟨zext64 (signif h), 0⟩
  | 0x05 => ⟨zext64 (quiet h), 0⟩
  | 0x06 => ⟨zext64 (payload h), 0⟩
  | 0x10 => ⟨zext64 (classCode (classOf h)), 0⟩
  | 0x11 => ⟨truth64 (isNaN h), 0⟩
  | 0x12 => ⟨truth64 (isInf h), 0⟩
  | 0x13 => ⟨truth64 (isFinite h), 0⟩
  | 0x14 => ⟨truth64 (isNegative h), 0⟩
  | 0x15 => ⟨truth64 (isNormal h), 0⟩
  | 0x16 => ⟨truth64 (isSubnormal h), 0⟩
  | 0x20 => ⟨zext64 (widen 8 23 h), 0⟩
  | 0x21 => ⟨zext64 (widen 11 52 h), 0⟩
  | 0x30 => ⟨zext64 (narrowWith Config.nanFill 8 23 (i.a.extractLsb' 0 32)), 0⟩
  | 0x31 => ⟨zext64 (narrowWith Config.nanFill 11 52 (i.a.extractLsb' 0 64)), 0⟩
  | 0x40 => ⟨truth64 (ieeeEq h hb), 0⟩
  | 0x41 => ⟨truth64 (ieeeNe h hb), 0⟩
  | 0x42 => ⟨truth64 (ieeeLt h hb), 0⟩
  | 0x43 => ⟨truth64 (ieeeLe h hb), 0⟩
  | 0x44 => ⟨truth64 (ieeeGt h hb), 0⟩
  | 0x45 => ⟨truth64 (ieeeGe h hb), 0⟩
  | 0x46 => ⟨sext64 (totalCmp h hb), 0⟩
  | 0x47 => ⟨truth64 (valueEq h hb), 0⟩
  | _ => ⟨0, 1⟩

end Sys2Proof.Machine
end

