-- ==== Sys2Proof/Machine/Latency.lean ====
section
/-! DEFINITION. The open parameter LATENCY (spec/00_scope.md R7; spec/70_reset_and_hazards.md R113), beside the machine and
no part of it: no rule depends on it and State has no time (log entry 9). LATENCY is the length of a delay line. -/

namespace Sys2Proof.Machine

/-- One moment of an implementation with `regs.length` stages between inputs and outputs: the host presents `i`; the outputs
seen are `exec` of the oldest stage, or of `i` itself when there is none (R113). -/
def pipeTick (regs : List Inputs) (i : Inputs) : Outputs × List Inputs :=
  match regs with
  | [] => (portExec i, [])
  | r :: rest => (portExec r, rest ++ [i])

/-- The outputs seen at each moment while the host presents a list of inputs, from any contents of the stages: what they
hold after power-up is not architectural (R109). -/
def pipeOutputs (regs : List Inputs) : List Inputs → List Outputs
  | [] => []
  | i :: rest => (pipeTick regs i).1 :: pipeOutputs (pipeTick regs i).2 rest

end Sys2Proof.Machine
end

