-- ==== Sys2Proof/WellFormed.lean ====
section
/-! DEFINITION. Well-formedness: which command words are defined (spec/30_encoding.md R41), and which written
transactions are (R43). An `Instr` carries no operand field, so there is nothing in it to be ill-formed but its word. -/

namespace Sys2Proof

/-- A command word outside the reserved ranges as R41 lists them: `fn` 7 to 15 in groups 0 and 1, `fn` 2 to 15 in groups
2 and 3, `fn` 8 to 15 in group 4, and every `fn` in groups 5 to 15. Written from R41's ranges, not from R40's rows. -/
def cmdDefined (w : Cmd) : Bool :=
  let g := (cmdGrp w).toNat
  let f := (cmdFn w).toNat
  if g ≤ 1 then f < 7 else if g ≤ 3 then f < 2 else if g = 4 then f < 8 else false

/-- An operation is well formed when its command word is a defined one. -/
def Instr.wf (i : Instr) : Bool := cmdDefined (encode i)

/-- As many values as widths, and each value fits its width. -/
def fitsWidths : List Nat → List Nat → Bool
  | [], [] => true
  | v :: vs, k :: ks => decide (v < 2 ^ k) && fitsWidths vs ks
  | _, _ => false

/-- A written transaction (R43) is well formed when it gives exactly the operands its operand form reads, each value within
the width that form reads (R38). -/
def Written.wf (t : Written) : Bool := t.op.wf && fitsWidths t.operands t.op.operandForm.widths

end Sys2Proof
end

