-- ==== Sys2Proof/Machine/Transactions.lean ====
section
/-! DEFINITION. The host's side of a transaction: driving the ports, running one step, reading the outputs, and sequences of
transactions (spec/00_scope.md R6; spec/10_state.md R27; spec/20_memory.md R36; spec/30_encoding.md R43). HCB keeps no record
of a sequence (R14, R18): the list of transactions is the host's and no part of State. -/

namespace Sys2Proof.Machine

/-- One transaction: the host drives the inputs and HCB answers (R6). -/
def transact (s : State) (i : Inputs) : Host.Outcome State Fault Refusal := step (s.drive i)

/-- The outputs the host reads after each of a list of transactions, in order; it ends early only at a stop. -/
def session (s : State) : List Inputs → List Outputs
  | [] => []
  | i :: rest =>
    match transact s i with
    | .next t => t.outputs :: session t rest
    | .fault _ => []
    | .refused _ => []

/-- The ports a written transaction drives: its command word and its operand values (R38, R43). -/
def writtenInputs (t : Written) : Inputs := ⟨encode t.op, (portsOf t.operands).1, (portsOf t.operands).2⟩

/-- The left side of the transaction as R43 writes it, read from the ports: the operation of a defined command and the values
its operand form reads (R38, R43); none for a reserved command (R41). -/
def readWritten (i : Inputs) : Option Written :=
  match decode i.cmd with
  | .op op => some ⟨op, operandsOf op.operandForm i.a i.b⟩
  | .reserved _ => none

end Sys2Proof.Machine
end

