-- ==== Sys2Proof/Machine/Values.lean ====
section
/-! DEFINITION. The exact rational values of the three formats (spec/00_scope.md R12; spec/10_state.md R19 to R21) and the
mathematical form of narrowing (spec/42_narrowing.md R82). No meaning of an operation is defined through this file. -/

namespace Sys2Proof.Machine

/-- `(-1)^s`. -/
def signFactor (s : Bit) : ℚ := if s = 1 then -1 else 1

/-- `val_H(h)` (R19). It is the value only when `h` is neither a NaN nor an infinity (log entry 11). -/
def valH (h : Half) : ℚ :=
  if expNat h = 0 then signFactor (sign h) * mantNat h * 2 ^ (-24 : ℤ)
  else signFactor (sign h) * (1024 + mantNat h) * 2 ^ ((expNat h : ℤ) - 25)

/-- The exact value of a finite wide value (R20 at (8, 23), R21 at (11, 52); log entry 11). -/
def valWide {ew mw : Nat} (x : BitVec (1 + ew + mw)) : ℚ :=
  if wideExp x = 0 then signFactor (wideSign x) * wideMant x * 2 ^ (1 - (biasOf ew : ℤ) - mw)
  else signFactor (wideSign x) * (2 ^ mw + wideMant x) * 2 ^ ((wideExp x : ℤ) - biasOf ew - mw)

/-- A wide NaN: all-ones exponent, nonzero mantissa (R20, R21). -/
def wideNaN {ew mw : Nat} (x : BitVec (1 + ew + mw)) : Bool := wideExp x = onesOf ew && wideMant x ≠ 0

/-- A wide infinity: all-ones exponent, zero mantissa (R20, R21). -/
def wideInf {ew mw : Nat} (x : BitVec (1 + ew + mw)) : Bool := wideExp x = onesOf ew && wideMant x = 0

/-- A wide value that is neither a NaN nor an infinity. -/
def wideFinite {ew mw : Nat} (x : BitVec (1 + ew + mw)) : Bool := wideExp x ≠ onesOf ew

/-- A rational, or one of two infinities at the ends. -/
abbrev ExtVal := WithBot (WithTop ℚ)

/-- The value of a half that is not a NaN, infinities at the ends (R19, R87). -/
def extH (h : Half) : ExtVal := if isInf h then (if isNegative h then ⊥ else ⊤) else ((valH h : WithTop ℚ) : ExtVal)

/-- The value of a wide value that is not a NaN, infinities at the ends (R20, R21, R85 item 4). -/
def extWide {ew mw : Nat} (x : BitVec (1 + ew + mw)) : ExtVal :=
  if wideInf x then (if wideSign x = 1 then ⊥ else ⊤) else ((valWide x : WithTop ℚ) : ExtVal)

/-- `RNE(q)` for a non-negative rational (R12): the nearest integer, the even one at a tie. -/
def rne (q : ℚ) : ℤ :=
  if q - ⌊q⌋ < 1 / 2 then ⌊q⌋
  else if 1 / 2 < q - ⌊q⌋ then ⌊q⌋ + 1
  else if ⌊q⌋ % 2 = 0 then ⌊q⌋ else ⌊q⌋ + 1

/-- `magbits(v)` for a finite magnitude (R82), `E = floor(log2(v))`. -/
def magbits (v : ℚ) : ℤ :=
  if 65520 ≤ v then 0x7C00
  else if v < 2 ^ (-14 : ℤ) then rne (v * 2 ^ (24 : ℤ))
  else (Int.log 2 v + 14) * 1024 + rne (v * 2 ^ (10 - Int.log 2 v))

end Sys2Proof.Machine
end

