-- ==== Sys2Proof/Safety.lean ====
section
/-! DEFINITION. The terms in which claims about HCB are stated: what completing means, the invariant of the outputs, and
readings of the ports by shifts and masks (spec/40_bitmodel.md R49) that no meaning of an operation uses. -/

namespace Sys2Proof.Machine

/-- Operation `i`, whose command word is `w`, completes from every state: `y` is the given function of the operand ports,
`ill` is 0, and the input ports, the rest of the state, are unchanged; and a step with `w` on `cmd` does exactly that. -/
def Returns (i : Instr) (w : Cmd) (y : Port64 → Half → Port64) : Prop :=
  ∀ s : State, exec i s = .next { s with y := y s.a s.b, ill := 0 } ∧
    (s.cmd = w → step s = .next { s with y := y s.a s.b, ill := 0 })

/-- HNAR.S and HNAR.D complete from every state with a half `r` on `y[15:0]`, zeros above it and `ill` 0, and `r` stands in
relation `P` to the wide value read from `a` (R83, R84). `P` takes the source's exponent and mantissa widths first. -/
def Narrows (P : (ew mw : Nat) → BitVec (1 + ew + mw) → Half → Prop) : Prop :=
  (∀ s : State, ∃ r : Half, exec .hnarS s = .next { s with y := r.setWidth 64, ill := 0 } ∧ P 8 23 (s.a.extractLsb' 0 32) r) ∧
  (∀ s : State, ∃ r : Half, exec .hnarD s = .next { s with y := r.setWidth 64, ill := 0 } ∧ P 11 52 s.a r)

/-- HWID.S and HWID.D complete from every state with a wide value `x` right-aligned on `y`, zeros above it and `ill` 0, and
`x` stands in relation `P` to the half read from `a` (R72, R73). `P` takes the target's exponent and mantissa widths first. -/
def Widens (P : (ew mw : Nat) → Half → BitVec (1 + ew + mw) → Prop) : Prop :=
  (∀ s : State, ∃ x : Float32Bits,
    exec .hwidS s = .next { s with y := x.setWidth 64, ill := 0 } ∧ P 8 23 (s.a.extractLsb' 0 16) x) ∧
  (∀ s : State, ∃ x : Float64Bits, exec .hwidD s = .next { s with y := x, ill := 0 } ∧ P 11 52 (s.a.extractLsb' 0 16) x)

/-- The outputs are `exec` of the present inputs (R26, R109). -/
def Settled (s : State) : Prop := s.outputs = portExec s.inputs

/-- Two pairs of operand ports agree on every bit an operand form reads (R38). -/
def AgreeOn (f : OperandForm) (a : Port64) (b : Half) (a' : Port64) (b' : Half) : Prop :=
  match f with
  | .H => a.extractLsb' 0 16 = a'.extractLsb' 0 16
  | .S => a.extractLsb' 0 32 = a'.extractLsb' 0 32
  | .D => a = a'
  | .HH => a.extractLsb' 0 16 = a'.extractLsb' 0 16 ∧ b = b'

/-- `(h >> 15) & 1` of the half on `a` (R49). -/
def signOf (a : Port64) : Nat := (a.toNat / 2 ^ 15) % 2

/-- `(h >> 10) & 0x1F` of the half on `a` (R49). -/
def expOf (a : Port64) : Nat := (a.toNat / 2 ^ 10) % 32

/-- `h & 0x3FF` of the half on `a` (R49). -/
def mantOf (a : Port64) : Nat := a.toNat % 1024

/-- `u(h[14:0])` (R59, R87). -/
def magOf (h : Half) : Nat := h.toNat % 2 ^ 15

/-- The value key of R87, read by arithmetic on the 16-bit number. -/
def keyOf (h : Half) : Int := if 2 ^ 15 ≤ h.toNat then -(magOf h : Int) else magOf h

/-- The total key of R87, read by arithmetic on the 16-bit number. -/
def totalKeyOf (h : Half) : Int := if 2 ^ 15 ≤ h.toNat then -1 - (magOf h : Int) else magOf h

/-- A truth value on `y` (R39). -/
def bitOf (p : Prop) [Decidable p] : Port64 := if p then 1 else 0

end Sys2Proof.Machine
end

