-- ==== Sys2Proof/Certificates/Slice0/Obligations.lean ====
section
/-! DEFINITION. The statements for the provers. Each docstring names the rule of spec/ it formalises. -/

open Sys2Proof Sys2Proof.Machine

/-! ## The block as a whole -/

/-- R26, R109: at reset the outputs are `exec` of the present inputs. That the inputs are zero is the model's choice (log
entry 2). -/
def Obligations.ResetOutputsAreExecOfResetInputs : Prop :=
  State.reset.inputs = ⟨0, 0, 0⟩ ∧ Settled State.reset

/-- R6, R14: a step runs the operation whose word is on `cmd` and adds nothing around it. -/
def Obligations.StepRunsTheDecodedOperation : Prop :=
  ∀ (s : State) (i : Instr), decode s.cmd = .op i → i.wf = true ∧ step s = exec i s

/-- R45: a step writes exactly `exec(cmd, a, b)` to the two outputs, for all 2^88 inputs, and changes nothing else. -/
def Obligations.StepIsTheSpecsCaseSplit : Prop :=
  ∀ s : State, step s = .next { s with y := (portExec s.inputs).y, ill := (portExec s.inputs).ill }

/-- R23, R101: every operation completes from every state with `ill = 0` and changes nothing but the outputs; a step never
stops; there is no fault to raise. -/
def Obligations.EveryOperationCompletesAndWritesOnlyOutputs : Prop :=
  (∀ (i : Instr) (s : State), ∃ y : Port64, exec i s = .next { s with y := y, ill := 0 }) ∧
  (∀ s : State, ∃ (y : Port64) (ill : Bit), step s = .next { s with y := y, ill := ill }) ∧
  IsEmpty Fault

/-- R41, R104: the reserved words are the ranges of R41 and exactly the words of no operation, 230 of 256; a reserved command
gives `y = 0`, `ill = 1` whatever `a` and `b` hold and changes nothing else; every other word gives `ill = 0`; what a
transaction left on the outputs does not reach the next. -/
def Obligations.ReservedCommandsGiveIllAndZero : Prop :=
  (∀ w : Cmd, cmdDefined w = false ↔ ∀ i : Instr, encode i ≠ w) ∧
  (((List.range 256).filter fun n => !cmdDefined (BitVec.ofNat 8 n)).length = 230) ∧
  (∀ s : State, cmdDefined s.cmd = false → step s = .next { s with y := 0, ill := 1 }) ∧
  (∀ s : State, cmdDefined s.cmd = true → ∃ y : Port64, step s = .next { s with y := y, ill := 0 }) ∧
  (∀ (s : State) (o : Outputs) (i : Inputs), transact (s.respond o) i = transact s i)

/-- R37, R40, R42: decode of encode is the operation for each of the 26, and no other word selects it. An operation has no
operand field; the operands on the ports are WrittenTransactionsReadBack's. -/
def Obligations.DecodeAndEncodeAgree : Prop :=
  ∀ (w : Cmd) (i : Instr), decode w = .op i ↔ w = encode i

/-- R40: a command word selects an operation exactly when, under the mask 0xFF, it matches that operation's word; and the
table, row by row: `cmd` = `grp` over `fn`, operand form, result form. -/
def Obligations.OpcodeMapIsTheSpecsTable : Prop :=
  (∀ i : Instr, cmdGrp (encode i) = i.grp ∧ cmdFn (encode i) = i.fn ∧ decode (encode i) = .op i) ∧
  (∀ (w : Cmd) (i : Instr), decode w = .op i ↔ w &&& 0xFF = encode i) ∧
  ([Instr.hsign, .hexpf, .hmant, .hexpu, .hsignif, .hquiet, .hpayld].map fun i => (encode i, i.operandForm, i.resultForm)) =
    [(0x00, .H, .U1), (0x01, .H, .U5), (0x02, .H, .U10), (0x03, .H, .I), (0x04, .H, .U11), (0x05, .H, .U1), (0x06, .H, .U9)] ∧
  ([Instr.hclass, .hisnan, .hisinf, .hisfin, .hisneg, .hisnorm, .hissub].map fun i =>
      (encode i, i.operandForm, i.resultForm)) =
    [(0x10, .H, .U4), (0x11, .H, .U1), (0x12, .H, .U1), (0x13, .H, .U1), (0x14, .H, .U1), (0x15, .H, .U1), (0x16, .H, .U1)] ∧
  ([Instr.hwidS, .hwidD, .hnarS, .hnarD].map fun i => (encode i, i.operandForm, i.resultForm)) =
    [(0x20, .H, .S32), (0x21, .H, .D64), (0x30, .S, .H16), (0x31, .D, .H16)] ∧
  ([Instr.heq, .hne, .hlt, .hle, .hgt, .hge, .htot, .heqv].map fun i => (encode i, i.operandForm, i.resultForm)) =
    [(0x40, .HH, .U1), (0x41, .HH, .U1), (0x42, .HH, .U1), (0x43, .HH, .U1), (0x44, .HH, .U1), (0x45, .HH, .U1),
      (0x46, .HH, .I), (0x47, .HH, .U1)]

/-- R38: which operation has which operand form, and that input bits outside the form cannot change `y` or `ill`. -/
def Obligations.InputBitsOutsideTheOperandFormAreIgnored : Prop :=
  (∀ i : Instr, i.operandForm = if i = .hnarS then .S else if i = .hnarD then .D else if i.grp = 4 then .HH else .H) ∧
  (∀ (i : Instr) (s : State) (a : Port64) (b : Half), AgreeOn i.operandForm s.a s.b a b →
    ∃ y : Port64, exec i s = .next { s with y := y, ill := 0 } ∧
      exec i { s with a := a, b := b } = .next { s with a := a, b := b, y := y, ill := 0 })

/-- R39: every result form's width and who uses it; unsigned results are zero above their width, a truth value is 0 or 1, and
the two signed results are sign-extended integers in their ranges. -/
def Obligations.ResultsHaveTheirForms : Prop :=
  (∀ s : State, ∀ i ∈ [Instr.hsign, .hquiet, .hisnan, .hisinf, .hisfin, .hisneg, .hisnorm, .hissub, .heq, .hne, .hlt, .hle,
      .hgt, .hge, .heqv], ∃ y : Port64, exec i s = .next { s with y := y, ill := 0 } ∧ (y = 0 ∨ y = 1)) ∧
  (∀ s : State, ∀ iw ∈ [(Instr.hclass, 4), (.hexpf, 5), (.hpayld, 9), (.hmant, 10), (.hsignif, 11), (.hnarS, 16), (.hnarD, 16),
      (.hwidS, 32), (.hwidD, 64)], ∃ y : Port64, exec iw.1 s = .next { s with y := y, ill := 0 } ∧ y.toNat < 2 ^ iw.2) ∧
  (∀ s : State, ∃ n : Int, exec .hexpu s = .next { s with y := BitVec.ofInt 64 n, ill := 0 } ∧ -14 ≤ n ∧ n ≤ 16) ∧
  (∀ s : State, ∃ n : Int, exec .htot s = .next { s with y := BitVec.ofInt 64 n, ill := 0 } ∧ (n = -1 ∨ n = 0 ∨ n = 1))

/-- R15: two transactions with equal inputs have equal outputs, whatever the outputs held before. -/
def Obligations.EqualInputsGiveEqualOutputs : Prop :=
  ∀ s s' : State, s.inputs = s'.inputs →
    ∃ o : Outputs, step s = .next (s.respond o) ∧ step s' = .next (s'.respond o)

/-- R26, R34, R109: "the outputs are `exec` of the present inputs" holds after every step, so every step keeps it; the
states in which it holds are exactly those a step leaves as they are. That outputs stay between steps is the model's (log
entry 3). -/
def Obligations.EveryStepSettlesTheOutputs : Prop :=
  (∀ s t : State, step s = .next t → Settled t ∧ step t = .next t) ∧
  (∀ s : State, Settled s ↔ step s = .next s)

/-- R27, R36: in a sequence of transactions each answer is `exec` of that transaction's inputs alone, whatever state the
sequence starts from. -/
def Obligations.SessionAnswersEachTransactionByItsOwnInputs : Prop :=
  ∀ (s : State) (is : List Inputs), session s is = is.map portExec

/-- R27, R36: issuing transactions in another order permutes the answers and changes none; and what each of several hosts
reads from an interleaving of their transactions is what it reads alone. -/
def Obligations.OrderAndInterleavingChangeNoAnswer : Prop :=
  (∀ (s s' : State) (is js : List Inputs), is.Perm js →
    (is.zip (session s is)).Perm (js.zip (session s' js))) ∧
  (∀ (s s' : State) (tagged : List (Nat × Inputs)) (host : Nat),
    ((((tagged.map Prod.fst).zip (session s (tagged.map Prod.snd))).filter fun p => p.1 = host).map Prod.snd) =
      session s' ((tagged.filter fun p => p.1 = host).map Prod.snd))

/-- R113's outcome, of the model's own delay line. That line, beside the machine, with stages that hold inputs, is a DESIGN
CHOICE (log entry 9): R113 gives the outcome only, and the machine has no time. With LATENCY stages, from any power-up
contents, the outputs seen at a moment are those a step answers for the inputs presented LATENCY moments earlier, in the
order they went in; LATENCY = 0 answers at once. -/
def Obligations.LatencyOnlyDelaysTheOutputs : Prop :=
  (∀ regs is : List Inputs, (pipeOutputs regs is).length = is.length) ∧
  (∀ (regs is : List Inputs) (t : Nat), regs.length + t < is.length →
    (pipeOutputs regs is)[regs.length + t]? = is[t]?.map portExec) ∧
  (∀ is : List Inputs, pipeOutputs [] is = is.map portExec) ∧
  (∀ (regs is : List Inputs) (t : Nat) (i : Inputs) (o : Outputs), is[t]? = some i →
    (pipeOutputs regs is)[regs.length + t]? = some o → ∀ s : State, transact s i = .next ((s.drive i).respond o))

/-- R38, R43: the operand values of a well-formed written transaction are the operands its operation reads, and the
transaction runs that operation. -/
def Obligations.WrittenOperandsReachTheOperation : Prop :=
  ∀ t : Written, t.wf = true →
    (∀ s : State, transact s (writtenInputs t) = exec t.op (s.drive (writtenInputs t))) ∧
    match t.op.operandForm with
    | .H => t.operands = [(operandH (writtenInputs t).a).toNat]
    | .S => t.operands = [(operandS (writtenInputs t).a).toNat]
    | .D => t.operands = [(operandD (writtenInputs t).a).toNat]
    | .HH => t.operands = [(operandH (writtenInputs t).a).toNat, (operandB (writtenInputs t).b).toNat]

/-- R37, R38, R41, R43: a well-formed written transaction is read back from the ports it drives, every operand at every
value its form admits; every input of a defined command reads as a well-formed written transaction with the same answer, and
no other input reads as one. That an unused port is driven to zero is the model's choice (log entry 12); the second clause
says that it changes no answer. -/
def Obligations.WrittenTransactionsReadBack : Prop :=
  (∀ t : Written, t.wf = true → readWritten (writtenInputs t) = some t) ∧
  (∀ (i : Inputs) (t : Written), readWritten i = some t → t.wf = true ∧ ∀ s : State, ∃ o : Outputs,
    transact s i = .next ((s.drive i).respond o) ∧
      transact s (writtenInputs t) = .next ((s.drive (writtenInputs t)).respond o)) ∧
  (∀ i : Inputs, readWritten i = none ↔ cmdDefined i.cmd = false)

/-! ## Field extraction and classification -/

/-- R50, R51, R52, R56, R57: the five raw extractions, by shifts and masks. -/
def Obligations.RawFieldsAreShiftsAndMasks : Prop :=
  Returns .hsign 0x00 (fun a _ => BitVec.ofNat 64 (signOf a)) ∧
  Returns .hexpf 0x01 (fun a _ => BitVec.ofNat 64 (expOf a)) ∧
  Returns .hmant 0x02 (fun a _ => BitVec.ofNat 64 (mantOf a)) ∧
  Returns .hquiet 0x05 (fun a _ => BitVec.ofNat 64 (a.toNat / 2 ^ 9 % 2)) ∧
  Returns .hpayld 0x06 (fun a _ => BitVec.ofNat 64 (a.toNat % 2 ^ 9))

/-- R53: the three raw fields determine the half. -/
def Obligations.RawFieldsDetermineTheHalf : Prop :=
  ∀ s : State, ∃ t₁ t₂ t₃ : State, exec .hsign s = .next t₁ ∧ exec .hexpf s = .next t₂ ∧ exec .hmant s = .next t₃ ∧
    s.a.extractLsb' 0 16 = t₁.y.extractLsb' 0 1 ++ t₂.y.extractLsb' 0 5 ++ t₃.y.extractLsb' 0 10

/-- R54: the unbiased exponent, -14 for field 0 and field - 15 otherwise, sign-extended; -14 for zeros and 16 for infinities
and NaNs too. -/
def Obligations.HexpuReturnsUnbiasedExponent : Prop :=
  Returns .hexpu 0x03 (fun a _ => BitVec.ofInt 64 (if expOf a = 0 then -14 else (expOf a : Int) - 15)) ∧
  (BitVec.ofInt 64 (-14) = (0xFFFFFFFFFFFFFFF2 : Port64)) ∧
  (∀ s : State, expOf s.a = 31 → exec .hexpu s = .next { s with y := 16, ill := 0 })

/-- R55: the significand, and the exact value that HSIGN, HEXPU and HSIGNIF give together. -/
def Obligations.HsignifReturnsSignificandOfTheValue : Prop :=
  Returns .hsignif 0x04
    (fun a _ => BitVec.ofNat 64 ((if 1 ≤ expOf a ∧ expOf a ≤ 30 then 1024 else 0) + mantOf a)) ∧
  (∀ s : State, expOf s.a ≠ 31 → ∃ t u v : State,
    exec .hsign s = .next t ∧ exec .hexpu s = .next u ∧ exec .hsignif s = .next v ∧
    valH (s.a.extractLsb' 0 16) = (-1) ^ t.y.toNat * v.y.toNat * 2 ^ (u.y.toInt - 10))

/-- R58: the class code, line by line; the nine conditions cover every half. -/
def Obligations.HclassReturnsTheClassCode : Prop :=
  ∃ code : Port64 → Nat, Returns .hclass 0x10 (fun a _ => BitVec.ofNat 64 (code a)) ∧
    ∀ a : Port64,
      (expOf a = 31 ∧ mantOf a = 0 ∧ signOf a = 0 → code a = 0) ∧
      (expOf a = 31 ∧ mantOf a = 0 ∧ signOf a = 1 → code a = 1) ∧
      (expOf a = 31 ∧ mantOf a ≠ 0 → code a = 2) ∧
      (expOf a = 0 ∧ mantOf a = 0 ∧ signOf a = 0 → code a = 3) ∧
      (expOf a = 0 ∧ mantOf a = 0 ∧ signOf a = 1 → code a = 4) ∧
      (expOf a = 0 ∧ mantOf a ≠ 0 ∧ signOf a = 0 → code a = 5) ∧
      (expOf a = 0 ∧ mantOf a ≠ 0 ∧ signOf a = 1 → code a = 6) ∧
      (1 ≤ expOf a ∧ expOf a ≤ 30 ∧ signOf a = 0 → code a = 7) ∧
      (1 ≤ expOf a ∧ expOf a ≤ 30 ∧ signOf a = 1 → code a = 8) ∧
      code a ≤ 8

/-- R59 to R64: the six predicates, by their pseudocode, and the equivalent tests on the low 15 bits. -/
def Obligations.PredicatesTestTheFields : Prop :=
  Returns .hisnan 0x11 (fun a _ => bitOf (expOf a = 31 ∧ mantOf a ≠ 0)) ∧
  Returns .hisinf 0x12 (fun a _ => bitOf (expOf a = 31 ∧ mantOf a = 0)) ∧
  Returns .hisfin 0x13 (fun a _ => bitOf (¬(expOf a = 31 ∧ mantOf a ≠ 0) ∧ ¬(expOf a = 31 ∧ mantOf a = 0))) ∧
  Returns .hisneg 0x14 (fun a _ => bitOf (signOf a = 1)) ∧
  Returns .hisnorm 0x15 (fun a _ => bitOf (1 ≤ expOf a ∧ expOf a ≤ 30)) ∧
  Returns .hissub 0x16 (fun a _ => bitOf (expOf a = 0 ∧ mantOf a ≠ 0)) ∧
  (∀ a : Port64,
    ((expOf a = 31 ∧ mantOf a ≠ 0) ↔ 0x7C00 < a.toNat % 2 ^ 15) ∧
    ((expOf a = 31 ∧ mantOf a = 0) ↔ a.toNat % 2 ^ 15 = 0x7C00) ∧
    ((¬(expOf a = 31 ∧ mantOf a ≠ 0) ∧ ¬(expOf a = 31 ∧ mantOf a = 0)) ↔ expOf a ≠ 31) ∧
    (expOf a ≠ 31 ↔ a.toNat % 2 ^ 15 < 0x7C00))

/-- R65: the class code and the six predicates of one half always stand in one row of the table, and exactly one of NaN,
infinity, normal, subnormal, zero holds. -/
def Obligations.ClassCodeAndPredicatesAgree : Prop :=
  ∀ s : State, ∃ c nan inf fin norm sub neg : Port64,
    exec .hclass s = .next { s with y := c, ill := 0 } ∧ exec .hisnan s = .next { s with y := nan, ill := 0 } ∧
    exec .hisinf s = .next { s with y := inf, ill := 0 } ∧ exec .hisfin s = .next { s with y := fin, ill := 0 } ∧
    exec .hisnorm s = .next { s with y := norm, ill := 0 } ∧ exec .hissub s = .next { s with y := sub, ill := 0 } ∧
    exec .hisneg s = .next { s with y := neg, ill := 0 } ∧
    [c, nan, inf, fin, norm, sub, neg] ∈
      ([[0, 0, 1, 0, 0, 0, 0], [1, 0, 1, 0, 0, 0, 1], [2, 1, 0, 0, 0, 0, BitVec.ofNat 64 (signOf s.a)],
        [3, 0, 0, 1, 0, 0, 0], [4, 0, 0, 1, 0, 0, 1], [5, 0, 0, 1, 0, 1, 0], [6, 0, 0, 1, 0, 1, 1],
        [7, 0, 0, 1, 1, 0, 0], [8, 0, 0, 1, 1, 0, 1]] : List (List Port64)) ∧
    nan.toNat + inf.toNat + norm.toNat + sub.toNat + (if s.a.toNat % 2 ^ 15 = 0 then 1 else 0) = 1

/-- R22: every half falls in exactly one category, with the counts of the table; a signaling NaN has a nonzero payload. -/
def Obligations.CategoriesPartitionTheHalves : Prop :=
  (∀ h : Half, ([isZero h, isSubnormal h, isNormal h, isInf h, isNaN h].filter id).length = 1) ∧
  (∀ h : Half, (isZero h ↔ expNat h = 0 ∧ mantNat h = 0) ∧ (isSubnormal h ↔ expNat h = 0 ∧ mantNat h ≠ 0) ∧
    (isNormal h ↔ 1 ≤ expNat h ∧ expNat h ≤ 30) ∧ (isInf h ↔ expNat h = 31 ∧ mantNat h = 0) ∧
    (isNaN h ↔ expNat h = 31 ∧ mantNat h ≠ 0)) ∧
  (Finset.univ.filter fun h : Half => isZero h).card = 2 ∧
  (Finset.univ.filter fun h : Half => isSubnormal h).card = 2046 ∧
  (Finset.univ.filter fun h : Half => isNormal h).card = 61440 ∧
  (Finset.univ.filter fun h : Half => isInf h).card = 2 ∧
  (Finset.univ.filter fun h : Half => isNaN h).card = 2046 ∧
  (∀ h : Half, isNaN h → mant h = quiet h ++ payload h ∧ (quiet h = 0 → payload h ≠ 0))

/-- R24 (with C1): the constants' bit patterns, classes and values. -/
def Obligations.ConstantsHaveTheirPatterns : Prop :=
  Config.epsilon = 0x0001 ∧ Config.maxValue = 0x7BFF ∧ Config.minValue = 0xFBFF ∧ Config.positiveInfinity = 0x7C00 ∧
  Config.negativeInfinity = 0xFC00 ∧ Config.nan = 0xFE00 ∧ Config.positiveZero = 0x0000 ∧ Config.negativeZero = 0x8000 ∧
  [Config.epsilon, Config.maxValue, Config.minValue, Config.positiveInfinity, Config.negativeInfinity, Config.nan,
    Config.positiveZero, Config.negativeZero].map (fun h => classCode (classOf h)) = [5, 7, 8, 0, 1, 2, 3, 4] ∧
  quiet Config.nan = 1 ∧ sign Config.nan = 1 ∧ payload Config.nan = 0 ∧
  valH Config.epsilon = 2 ^ (-24 : ℤ) ∧ valH Config.maxValue = 65504 ∧ valH Config.minValue = -65504

/-! ## Widening -/

/-- R72, R73: HWID.S and HWID.D return `widen(h, 8, 23)` and `widen(h, 11, 52)`, with the low 13 or 42 bits zero. -/
def Obligations.WideningReturnsTheWideFormat : Prop :=
  Returns .hwidS 0x20 (fun a _ => (widen 8 23 (a.extractLsb' 0 16)).setWidth 64) ∧
  Returns .hwidD 0x21 (fun a _ => widen 11 52 (a.extractLsb' 0 16)) ∧
  (∀ h : Half, (widen 8 23 h).toNat % 2 ^ 13 = 0 ∧ (widen 11 52 h).toNat % 2 ^ 42 = 0)

/-- R68: a zero widens to the target's zero of the same sign. -/
def Obligations.WideningOfZeros : Prop :=
  ∀ s : State, expOf s.a = 0 → mantOf s.a = 0 →
    exec .hwidS s = .next { s with y := BitVec.ofNat 64 (signOf s.a * 2 ^ 31), ill := 0 } ∧
    exec .hwidD s = .next { s with y := BitVec.ofNat 64 (signOf s.a * 2 ^ 63), ill := 0 }

/-- R69: a subnormal whose highest set mantissa bit is `j` is shifted left `k = 10 - j` times; its true exponent is
`E = -14 - k = j - 24` and its exponent field `E + BIAS`, that is `103 + j` or `999 + j`, as the table lists. -/
def Obligations.WideningOfSubnormals : Prop :=
  ∀ (s : State) (j : Nat), expOf s.a = 0 → 2 ^ j ≤ mantOf s.a → mantOf s.a < 2 ^ (j + 1) →
    1024 ≤ mantOf s.a * 2 ^ (10 - j) ∧ mantOf s.a * 2 ^ (10 - j) < 2048 ∧
    exec .hwidS s = .next { s with
      y := BitVec.ofNat 64 (signOf s.a * 2 ^ 31 + (103 + j) * 2 ^ 23 + (mantOf s.a * 2 ^ (10 - j) - 1024) * 2 ^ 13),
      ill := 0 } ∧
    exec .hwidD s = .next { s with
      y := BitVec.ofNat 64 (signOf s.a * 2 ^ 63 + (999 + j) * 2 ^ 52 + (mantOf s.a * 2 ^ (10 - j) - 1024) * 2 ^ 42),
      ill := 0 }

/-- R70: an infinity or a NaN gets the all-ones exponent and its mantissa at the top of the target's, sign and quiet flag
kept, low bits zero, nothing quieted. -/
def Obligations.WideningOfInfinitiesAndNaNs : Prop :=
  ∀ s : State, expOf s.a = 31 →
    exec .hwidS s = .next { s with
      y := BitVec.ofNat 64 (signOf s.a * 2 ^ 31 + 255 * 2 ^ 23 + mantOf s.a * 2 ^ 13), ill := 0 } ∧
    exec .hwidD s = .next { s with
      y := BitVec.ofNat 64 (signOf s.a * 2 ^ 63 + 2047 * 2 ^ 52 + mantOf s.a * 2 ^ 42), ill := 0 }

/-- R71: a normal is rebiased, its mantissa left-aligned. -/
def Obligations.WideningOfNormals : Prop :=
  ∀ s : State, 1 ≤ expOf s.a → expOf s.a ≤ 30 →
    exec .hwidS s = .next { s with
      y := BitVec.ofNat 64 (signOf s.a * 2 ^ 31 + (expOf s.a + 112) * 2 ^ 23 + mantOf s.a * 2 ^ 13), ill := 0 } ∧
    exec .hwidD s = .next { s with
      y := BitVec.ofNat 64 (signOf s.a * 2 ^ 63 + (expOf s.a + 1008) * 2 ^ 52 + mantOf s.a * 2 ^ 42), ill := 0 }

/-- R74 items 1 to 3: widening is exact over the rationals, keeps the sign bit, keeps the class and a NaN's quiet flag, and
never gives a subnormal. -/
def Obligations.WideningIsExact : Prop :=
  Widens fun ew mw h x =>
    (isFinite h = true → valWide x = valH h) ∧
    wideSign x = sign h ∧
    wideNaN x = isNaN h ∧ wideInf x = isInf h ∧
    (isZero h = true ↔ wideExp x = 0 ∧ wideMant x = 0) ∧
    (isSubnormal h = true ∨ isNormal h = true ↔ 1 ≤ wideExp x ∧ wideExp x < onesOf ew) ∧
    (isNaN h = true → wideMant x / 2 ^ (mw - 1) = (quiet h).toNat)

/-- R74 items 4 and 6: widening is injective, and the float64 result is the exact float64 of the float32 result: same sign,
same true exponent, the 23 mantissa bits at the top of the 52. -/
def Obligations.WideningIsInjectiveAndConsistent : Prop :=
  ∀ s s' : State, ∃ x x' : Float32Bits, ∃ z z' : Float64Bits,
    exec .hwidS s = .next { s with y := x.setWidth 64, ill := 0 } ∧
    exec .hwidS s' = .next { s' with y := x'.setWidth 64, ill := 0 } ∧
    exec .hwidD s = .next { s with y := z, ill := 0 } ∧ exec .hwidD s' = .next { s' with y := z', ill := 0 } ∧
    (x = x' → s.a.extractLsb' 0 16 = s'.a.extractLsb' 0 16) ∧ (z = z' → s.a.extractLsb' 0 16 = s'.a.extractLsb' 0 16) ∧
    wideSign (ew := 11) (mw := 52) z = wideSign (ew := 8) (mw := 23) x ∧
    wideMant (ew := 11) (mw := 52) z = wideMant (ew := 8) (mw := 23) x * 2 ^ 29 ∧
    wideExp (ew := 11) (mw := 52) z =
      (if wideExp (ew := 8) (mw := 23) x = 0 then 0
       else if wideExp (ew := 8) (mw := 23) x = 255 then 2047
       else wideExp (ew := 8) (mw := 23) x + 896)

/-- R74 item 7, R85 item 1: a host that copies the widened result from `y` back to `a` and narrows it gets the half it
started from, for all 65536 halves, NaNs included, at both widths. -/
def Obligations.NarrowingUndoesWidening : Prop :=
  ∀ (s : State) (b : Half),
    (∃ t : State, exec .hwidS s = .next t ∧
      exec .hnarS (t.drive ⟨0x30, t.y, b⟩) =
        .next { cmd := 0x30, a := t.y, b := b, y := (s.a.extractLsb' 0 16).setWidth 64, ill := 0 }) ∧
    (∃ t : State, exec .hwidD s = .next t ∧
      exec .hnarD (t.drive ⟨0x31, t.y, b⟩) =
        .next { cmd := 0x31, a := t.y, b := b, y := (s.a.extractLsb' 0 16).setWidth 64, ill := 0 })

/-! ## Narrowing -/

/-- R83, R84: HNAR.S and HNAR.D return `narrow(a[31:0], 8, 23)` and `narrow(a[63:0], 11, 52)` on `y[15:0]`. -/
def Obligations.NarrowingReturnsAHalf : Prop :=
  Returns .hnarS 0x30 (fun a _ => (narrowWith 0x200 8 23 (a.extractLsb' 0 32)).setWidth 64) ∧
  Returns .hnarD 0x31 (fun a _ => (narrowWith 0x200 11 52 a).setWidth 64)

/-- R76: a NaN narrows to its sign and the top ten bits of its mantissa, the quiet flag inherited, with 0x200 in their place
when they are all zero. -/
def Obligations.NarrowingOfNaNs : Prop :=
  Narrows fun _ mw x r => wideNaN x = true →
    r.toNat = (wideSign x).toNat * 2 ^ 15 + 31 * 2 ^ 10 +
      (if wideMant x / 2 ^ (mw - 10) = 0 then 0x200 else wideMant x / 2 ^ (mw - 10))

/-- R76, U1, R85 items 2 and 3: for every nonzero filling mantissa, the sign bit is kept and the result is a NaN exactly when
the source is one; the spec's `NAN_FILL` is nonzero. -/
def Obligations.NarrowingKeepsNaNsForAnyFill : Prop :=
  Config.nanFill ≠ 0 ∧ ∀ fill : BitVec 10, fill ≠ 0 →
    (∀ x : Float32Bits, isNaN (narrowSWith fill x) = wideNaN (ew := 8) (mw := 23) x ∧
      sign (narrowSWith fill x) = wideSign (ew := 8) (mw := 23) x) ∧
    (∀ x : Float64Bits, isNaN (narrowDWith fill x) = wideNaN (ew := 11) (mw := 52) x ∧
      sign (narrowDWith fill x) = wideSign (ew := 11) (mw := 52) x)

/-- R77, R78: an infinity narrows to the half infinity of its sign; a zero and every subnormal source to the zero of its
sign. -/
def Obligations.NarrowingOfInfinitiesZerosAndSubnormals : Prop :=
  Narrows fun _ _ x r =>
    (wideInf x = true → r.toNat = (wideSign x).toNat * 2 ^ 15 + 0x7C00) ∧
    (wideExp x = 0 → r.toNat = (wideSign x).toNat * 2 ^ 15)

/-- R79: the rounding increment is guard and (sticky or lsb), and the packed bits never pass the infinity pattern, so no
clamp is needed. -/
def Obligations.RoundingUsesGuardAndSticky : Prop :=
  (∀ sig shift : Nat, 1 ≤ shift →
    roundUp sig shift =
      if sig.testBit (shift - 1) && (decide (sig % 2 ^ (shift - 1) ≠ 0) || (sig / 2 ^ shift).testBit 0) then 1 else 0) ∧
  (∀ (mw sig : Nat) (e : Int), 10 ≤ mw → 2 ^ mw ≤ sig → sig < 2 ^ (mw + 1) → -25 ≤ e → e ≤ 15 →
    roundBits mw e sig ≤ 0x7C00)

/-- R80: the underflow table, from the exact magnitude `v`, and the threshold in source bit patterns. -/
def Obligations.UnderflowIsRoundToNearestEven : Prop :=
  (Narrows fun _ _ x r => wideFinite x = true →
    sign r = wideSign x ∧
    (|valWide x| < 2 ^ (-25 : ℤ) → mag r = 0) ∧
    (|valWide x| = 2 ^ (-25 : ℤ) → mag r = 0) ∧
    (2 ^ (-25 : ℤ) < |valWide x| → |valWide x| < 2 ^ (-24 : ℤ) → mag r = 1) ∧
    (|valWide x| = 3 * 2 ^ (-25 : ℤ) → mag r = 2)) ∧
  |valWide (ew := 8) (mw := 23) 0x33000000| = 2 ^ (-25 : ℤ) ∧
  |valWide (ew := 11) (mw := 52) 0x3E60000000000000| = 2 ^ (-25 : ℤ) ∧
  narrowS 0x33000000 = 0x0000 ∧ narrowS 0xB3000000 = 0x8000 ∧ narrowS 0x33000001 = 0x0001 ∧ narrowS 0xB3000001 = 0x8001 ∧
  narrowD 0x3E60000000000000 = 0x0000 ∧ narrowD 0x3E60000000000001 = 0x0001 ∧ narrowD 0xBE60000000000001 = 0x8001

/-- R81: magnitudes from 65520 up saturate to infinity of the source's sign, all below stay finite; the threshold in source
bit patterns. -/
def Obligations.OverflowSaturatesFrom65520 : Prop :=
  (Narrows fun _ _ x r => wideFinite x = true →
    sign r = wideSign x ∧
    (65520 ≤ |valWide x| → mag r = 0x7C00) ∧
    (|valWide x| < 65520 → mag r ≤ 0x7BFF)) ∧
  narrowS 0x477FEFFF = 0x7BFF ∧ narrowS 0x477FF000 = 0x7C00 ∧
  narrowD 0x40EFFDFFFFFFFFFF = 0x7BFF ∧ narrowD 0x40EFFE0000000000 = 0x7C00

/-- R82: the bit-level converter computes `{ s, magbits(v) }` of the exact magnitude `v`, for every source that is not a
NaN. -/
def Obligations.NarrowingComputesMagbits : Prop :=
  Narrows fun _ _ x r =>
    (wideFinite x = true →
      (r.toNat : ℤ) = (wideSign x).toNat * 2 ^ 15 + magbits |valWide x| ∧
      0 ≤ magbits |valWide x| ∧ magbits |valWide x| ≤ 0x7C00) ∧
    (wideInf x = true → r.toNat = (wideSign x).toNat * 2 ^ 15 + 0x7C00)

/-- R82 (its "Equivalently"): below the overflow threshold the result is a finite half nearest to the source's exact value, and
of two values equally near, the one whose bit 0 is 0. -/
def Obligations.NarrowingIsNearestTiesToEven : Prop :=
  Narrows fun _ _ x r => wideFinite x = true → |valWide x| < 65520 →
    isFinite r = true ∧ sign r = wideSign x ∧
    ∀ g : Half, isFinite g = true →
      |valWide x - valH r| ≤ |valWide x - valH g| ∧
      (|valWide x - valH r| = |valWide x - valH g| → valH g = valH r ∨ r.getLsbD 0 = false)

/-- R85 item 4: narrowing is monotone on non-NaN sources of one width, infinities at the ends, and
its results are no NaNs. -/
def Obligations.NarrowingIsMonotone : Prop :=
  (∀ s s' : State, wideNaN (ew := 8) (mw := 23) (s.a.extractLsb' 0 32) = false →
    wideNaN (ew := 8) (mw := 23) (s'.a.extractLsb' 0 32) = false →
    extWide (ew := 8) (mw := 23) (s.a.extractLsb' 0 32) ≤ extWide (ew := 8) (mw := 23) (s'.a.extractLsb' 0 32) →
    ∃ r r' : Half, exec .hnarS s = .next { s with y := r.setWidth 64, ill := 0 } ∧
      exec .hnarS s' = .next { s' with y := r'.setWidth 64, ill := 0 } ∧ isNaN r = false ∧ isNaN r' = false ∧
        extH r ≤ extH r') ∧
  (∀ s s' : State, wideNaN (ew := 11) (mw := 52) s.a = false → wideNaN (ew := 11) (mw := 52) s'.a = false →
    extWide (ew := 11) (mw := 52) s.a ≤ extWide (ew := 11) (mw := 52) s'.a →
    ∃ r r' : Half, exec .hnarD s = .next { s with y := r.setWidth 64, ill := 0 } ∧
      exec .hnarD s' = .next { s' with y := r'.setWidth 64, ill := 0 } ∧ isNaN r = false ∧ isNaN r' = false ∧
        extH r ≤ extH r')

/-- R85 item 5: a source whose value is the value of some half, with its sign, narrows to that half. -/
def Obligations.NarrowingIsExactWhenRepresentable : Prop :=
  Narrows fun _ _ x r => wideFinite x = true →
    ∀ h : Half, isFinite h = true → sign h = wideSign x → valH h = valWide x → r = h

/-- R85 item 6: the two widths agree: the same sign and value, or the same infinity, or a NaN with its mantissa 29 places
up, narrow to the same half. -/
def Obligations.NarrowingWidthsAgree : Prop :=
  ∀ s s' : State, wideSign (ew := 11) (mw := 52) s'.a = wideSign (ew := 8) (mw := 23) (s.a.extractLsb' 0 32) →
    ((wideFinite (ew := 8) (mw := 23) (s.a.extractLsb' 0 32) = true ∧ wideFinite (ew := 11) (mw := 52) s'.a = true ∧
        valWide (ew := 11) (mw := 52) s'.a = valWide (ew := 8) (mw := 23) (s.a.extractLsb' 0 32)) ∨
      (wideExp (ew := 8) (mw := 23) (s.a.extractLsb' 0 32) = 255 ∧ wideExp (ew := 11) (mw := 52) s'.a = 2047 ∧
        wideMant (ew := 11) (mw := 52) s'.a = wideMant (ew := 8) (mw := 23) (s.a.extractLsb' 0 32) * 2 ^ 29)) →
    ∃ r : Half, exec .hnarS s = .next { s with y := r.setWidth 64, ill := 0 } ∧
      exec .hnarD s' = .next { s' with y := r.setWidth 64, ill := 0 }

/-- R86, its example: the float64 1 + 2^-11 + 2^-40 lies above the midpoint 1 + 2^-11 of 0x3C00 and 0x3C01 and narrows to
0x3C01; the float32 nearest to it is that midpoint, 0x3F801000, which narrows to 0x3C00. That HNAR.D rounds once on every
operand is NarrowingComputesMagbits and NarrowingIsNearestTiesToEven. -/
def Obligations.DoubleRoundingExampleDiffers : Prop :=
  (∀ s : State,
    exec .hnarD { s with a := 0x3FF0020000001000 } =
      .next { s with a := 0x3FF0020000001000, y := 0x3C01, ill := 0 } ∧
    exec .hnarS { s with a := 0x3F801000 } = .next { s with a := 0x3F801000, y := 0x3C00, ill := 0 }) ∧
  valWide (ew := 11) (mw := 52) 0x3FF0020000001000 = 1 + 2 ^ (-11 : ℤ) + 2 ^ (-40 : ℤ) ∧
  valWide (ew := 8) (mw := 23) 0x3F801000 = 1 + 2 ^ (-11 : ℤ) ∧
  (valH 0x3C00 + valH 0x3C01) / 2 = 1 + 2 ^ (-11 : ℤ) ∧
  (∀ g : Float32Bits, wideFinite (ew := 8) (mw := 23) g = true → g ≠ 0x3F801000 →
    |valWide (ew := 11) (mw := 52) 0x3FF0020000001000 - valWide (ew := 8) (mw := 23) 0x3F801000| <
      |valWide (ew := 11) (mw := 52) 0x3FF0020000001000 - valWide (ew := 8) (mw := 23) g|)

/-! ## Comparison -/

/-- R87: the keys, their ranges, and that the value key orders non-NaN halves exactly as their values do. -/
def Obligations.ValueKeyOrdersByValue : Prop :=
  (∀ h : Half, mag h = magOf h ∧ (isNegative h = true ↔ 2 ^ 15 ≤ h.toNat) ∧ vkey h = keyOf h ∧ tkey h = totalKeyOf h ∧
    (isNaN h = true ↔ 0x7C00 < mag h) ∧ (isZero h = true ↔ mag h = 0)) ∧
  (∀ h : Half, isNaN h = false → -0x7C00 ≤ vkey h ∧ vkey h ≤ 0x7C00 ∧ -0x7C01 ≤ tkey h ∧ tkey h ≤ 0x7C00) ∧
  vkey 0x0000 = 0 ∧ vkey 0x8000 = 0 ∧ tkey 0x0000 = 0 ∧ tkey 0x8000 = -1 ∧
  (∀ p q : Half, isNaN p = false → isNaN q = false →
    (vkey p < vkey q ↔ extH p < extH q) ∧ (vkey p = vkey q ↔ extH p = extH q))

/-- R88, R89: HEQ by keys and without keys, and HNE as its negation, so true of a NaN. -/
def Obligations.HeqAndHneCompareForEquality : Prop :=
  Returns .heq 0x40 (fun a b =>
    bitOf (magOf (a.extractLsb' 0 16) ≤ 0x7C00 ∧ magOf b ≤ 0x7C00 ∧ keyOf (a.extractLsb' 0 16) = keyOf b)) ∧
  Returns .hne 0x41 (fun a b =>
    bitOf (¬(magOf (a.extractLsb' 0 16) ≤ 0x7C00 ∧ magOf b ≤ 0x7C00 ∧ keyOf (a.extractLsb' 0 16) = keyOf b))) ∧
  (∀ p q : Half, ieeeEq p q = true ↔
    magOf p ≤ 0x7C00 ∧ magOf q ≤ 0x7C00 ∧ (p = q ∨ (magOf p = 0 ∧ magOf q = 0)))

/-- R90, R92: HLT and HGT: false of a NaN, else by value key. -/
def Obligations.HltAndHgtCompareStrictly : Prop :=
  Returns .hlt 0x42 (fun a b =>
    bitOf (magOf (a.extractLsb' 0 16) ≤ 0x7C00 ∧ magOf b ≤ 0x7C00 ∧ keyOf (a.extractLsb' 0 16) < keyOf b)) ∧
  Returns .hgt 0x44 (fun a b =>
    bitOf (magOf (a.extractLsb' 0 16) ≤ 0x7C00 ∧ magOf b ≤ 0x7C00 ∧ keyOf (a.extractLsb' 0 16) > keyOf b)) ∧
  (∀ p q : Half, ieeeGt p q = ieeeLt q p)

/-- R91, R93: HLE and HGE: false of a NaN, else by value key; on non-NaN operands `<=` is `<` or `==`. -/
def Obligations.HleAndHgeCompareWeakly : Prop :=
  Returns .hle 0x43 (fun a b =>
    bitOf (magOf (a.extractLsb' 0 16) ≤ 0x7C00 ∧ magOf b ≤ 0x7C00 ∧ keyOf (a.extractLsb' 0 16) ≤ keyOf b)) ∧
  Returns .hge 0x45 (fun a b =>
    bitOf (magOf (a.extractLsb' 0 16) ≤ 0x7C00 ∧ magOf b ≤ 0x7C00 ∧ keyOf (a.extractLsb' 0 16) ≥ keyOf b)) ∧
  (∀ p q : Half, ieeeGe p q = ieeeLe q p) ∧
  (∀ p q : Half, isNaN p = false → isNaN q = false → ieeeLe p q = (ieeeLt p q || ieeeEq p q)) ∧
  (∀ p q : Half, isNaN p = true ∨ isNaN q = true → ieeeLe p q = false ∧ ieeeGt p q = false)

/-- R87 to R93: the six operators answer the comparison of the operands' exact values, infinities at the ends, with every
NaN unordered. -/
def Obligations.OperatorsCompareExactValues : Prop :=
  ∀ s : State, ∃ eq ne lt le gt ge : Port64,
    exec .heq s = .next { s with y := eq, ill := 0 } ∧ exec .hne s = .next { s with y := ne, ill := 0 } ∧
    exec .hlt s = .next { s with y := lt, ill := 0 } ∧ exec .hle s = .next { s with y := le, ill := 0 } ∧
    exec .hgt s = .next { s with y := gt, ill := 0 } ∧ exec .hge s = .next { s with y := ge, ill := 0 } ∧
    (if isNaN (s.a.extractLsb' 0 16) = true ∨ isNaN s.b = true then
      eq = 0 ∧ ne = 1 ∧ lt = 0 ∧ le = 0 ∧ gt = 0 ∧ ge = 0
    else
      (eq = 1 ↔ extH (s.a.extractLsb' 0 16) = extH s.b) ∧ (ne = 1 ↔ extH (s.a.extractLsb' 0 16) ≠ extH s.b) ∧
      (lt = 1 ↔ extH (s.a.extractLsb' 0 16) < extH s.b) ∧ (le = 1 ↔ extH (s.a.extractLsb' 0 16) ≤ extH s.b) ∧
      (gt = 1 ↔ extH (s.a.extractLsb' 0 16) > extH s.b) ∧ (ge = 1 ↔ extH (s.a.extractLsb' 0 16) ≥ extH s.b)) ∧
    (∀ v ∈ [eq, ne, lt, le, gt, ge], v = 0 ∨ v = 1)

/-- R94: the total order in RT's words: NaN lowest and one class; then by value with negative zero below positive zero; the
ranks of the landmarks; the 63490 non-NaN patterns have different ranks. -/
def Obligations.TotalOrderIsRtsOrder : Prop :=
  (∀ p q : Half, rank p < rank q ↔
    (isNaN p = true ∧ isNaN q = false) ∨
    (isNaN p = false ∧ isNaN q = false ∧ (extH p < extH q ∨ (p = 0x8000 ∧ q = 0x0000)))) ∧
  (∀ p q : Half, rank p = rank q ↔ p = q ∨ (isNaN p = true ∧ isNaN q = true)) ∧
  (∀ h : Half, isNaN h = true → rank h = -31746) ∧
  (∀ h : Half, isNaN h = false → rank h = totalKeyOf h ∧ -0x7C01 ≤ rank h ∧ rank h ≤ 0x7C00) ∧
  (Finset.univ.filter fun h : Half => !isNaN h).card = 63490 ∧
  [Config.negativeInfinity, Config.minValue, 0x8001, Config.negativeZero, Config.positiveZero, Config.epsilon,
    Config.maxValue, Config.positiveInfinity].map rank = [-31745, -31744, -2, -1, 0, 1, 31743, 31744]

/-- R95: HTOT by its cases, sign-extended; 0 exactly for equal patterns or two NaNs; antisymmetric; transitive. -/
def Obligations.HtotReturnsTheThreeWayResult : Prop :=
  Returns .htot 0x46 (fun a b =>
    if 0x7C00 < magOf (a.extractLsb' 0 16) ∧ 0x7C00 < magOf b then 0
    else if 0x7C00 < magOf (a.extractLsb' 0 16) then 0xFFFFFFFFFFFFFFFF
    else if 0x7C00 < magOf b then 1
    else if totalKeyOf (a.extractLsb' 0 16) < totalKeyOf b then 0xFFFFFFFFFFFFFFFF
    else if totalKeyOf (a.extractLsb' 0 16) = totalKeyOf b then 0 else 1) ∧
  (∀ p q : Half, totalCmp p q = if rank p < rank q then -1 else if rank p = rank q then 0 else 1) ∧
  (∀ p q : Half, totalCmp p q = 0 ↔ p = q ∨ (isNaN p = true ∧ isNaN q = true)) ∧
  totalCmp 0x8000 0x0000 = -1 ∧
  (∀ p q : Half, totalCmp q p = -totalCmp p q) ∧
  (∀ p q r : Half, totalCmp p q ≤ 0 → totalCmp q r ≤ 0 → totalCmp p r ≤ 0)

/-- R96: how the total order and the IEEE operators agree. -/
def Obligations.TotalOrderAgreesWithTheOperators : Prop :=
  (∀ p q : Half, isNaN p = false → isNaN q = false →
    (ieeeLt p q = true → totalCmp p q = -1) ∧ (totalCmp p q = -1 → ieeeLe p q = true) ∧
    ((totalCmp p q ≠ 0 ∧ ieeeEq p q = true) ↔ ((p = 0x8000 ∧ q = 0x0000) ∨ (p = 0x0000 ∧ q = 0x8000)))) ∧
  (∀ p q : Half, isNaN p = true ∨ isNaN q = true →
    ieeeEq p q = false ∧ ieeeLt p q = false ∧ ieeeLe p q = false ∧ ieeeGt p q = false ∧ ieeeGe p q = false ∧
    (totalCmp p q = -1 ∨ totalCmp p q = 0 ∨ totalCmp p q = 1))

/-- R98: HEQV is "both NaN, or IEEE-equal"; an equivalence relation whose classes are the NaNs, the two zeros, and each of
the other 63488 patterns alone; not the same as `total_cmp = 0`. -/
def Obligations.HeqvIsValueEquality : Prop :=
  Returns .heqv 0x47 (fun a b =>
    bitOf ((0x7C00 < magOf (a.extractLsb' 0 16) ∧ 0x7C00 < magOf b) ∨
      (magOf (a.extractLsb' 0 16) ≤ 0x7C00 ∧ magOf b ≤ 0x7C00 ∧ keyOf (a.extractLsb' 0 16) = keyOf b))) ∧
  Equivalence (fun p q : Half => valueEq p q = true) ∧
  (∀ p q : Half, valueEq p q = true ↔
    p = q ∨ (isNaN p = true ∧ isNaN q = true) ∨ (isZero p = true ∧ isZero q = true)) ∧
  (Finset.univ.filter fun h : Half => !isNaN h && !isZero h).card = 63488 ∧
  (Finset.univ.filter fun h : Half => isNaN h).card = 2046 ∧
  valueEq 0x8000 0x0000 = true ∧ totalCmp 0x8000 0x0000 ≠ 0

/-- R99: the summary table, row by row: HEQ, HNE, HLT, HLE, HGT, HGE, HTOT, HEQV. -/
def Obligations.ComparatorSummaryTable : Prop :=
  ∀ row ∈ ([(0x3C00, 0x4000, [0, 1, 1, 1, 0, 0, -1, 0]), (0x4000, 0x3C00, [0, 1, 0, 0, 1, 1, 1, 0]),
      (0x3C00, 0x3C00, [1, 0, 0, 1, 0, 1, 0, 1]), (0x8000, 0x0000, [1, 0, 0, 1, 0, 1, -1, 1]),
      (0x0000, 0x8000, [1, 0, 0, 1, 0, 1, 1, 1]), (0xFE00, 0xFE00, [0, 1, 0, 0, 0, 0, 0, 1]),
      (0xFE00, 0x7C01, [0, 1, 0, 0, 0, 0, 0, 1]), (0xFE00, 0xFC00, [0, 1, 0, 0, 0, 0, -1, 0])] ++
     [(0x7C00, 0x7E00, [0, 1, 0, 0, 0, 0, 1, 0]), (0xFC00, 0xFBFF, [0, 1, 1, 1, 0, 0, -1, 0]),
      (0x8001, 0x8000, [0, 1, 1, 1, 0, 0, -1, 0]), (0x03FF, 0x0400, [0, 1, 1, 1, 0, 0, -1, 0]),
      (0x7C00, 0x7C00, [1, 0, 0, 1, 0, 1, 0, 1])] : List (Half × Half × List Int)),
    ∀ s : State, s.a.extractLsb' 0 16 = row.1 → s.b = row.2.1 →
      ∀ c ∈ [Instr.heq, .hne, .hlt, .hle, .hgt, .hge, .htot, .heqv].zip row.2.2,
        exec c.1 s = .next { s with y := BitVec.ofInt 64 c.2, ill := 0 }

/-- The worked examples of RT §8 (spec/95_test_vectors.md T2, T3, T5, T6), as transactions from any state. -/
def Obligations.WorkedExamplesOfTheSource : Prop :=
  ∀ s : State, session s
      (([⟨.hnarS, [0x44807000]⟩, ⟨.hnarS, [0x44806FFF]⟩, ⟨.hnarS, [0x44807001]⟩, ⟨.hnarS, [0x7F7FFFFF]⟩,
        ⟨.hnarS, [0x7F800000]⟩, ⟨.hnarS, [0x33000000]⟩, ⟨.htot, [0x7BFF, 0xFE00]⟩, ⟨.htot, [0xFE00, 0xFE00]⟩,
        ⟨.htot, [0xFE00, 0x0000]⟩, ⟨.heq, [0xFE00, 0xFE00]⟩, ⟨.hge, [0xFE00, 0xFE00]⟩,
        ⟨.hnarD, [0x40A0020000000000]⟩] : List Written).map writtenInputs) =
    ([0x6404, 0x6403, 0x6404, 0x7C00, 0x7C00, 0x0000, 1, 0, -1, 0, 0, 0x6800] : List Int).map
      fun n => ⟨BitVec.ofInt 64 n, 0⟩
end

