-- ==== Sys2Proof/Laws/Ops.lean ====
section
/-! SUPPORT. What the shared operations can do: `answer` and `answerReserved` always answer a next state, and which. -/

namespace Sys2Proof.Machine

theorem answer_eq (y : Port64) (s : State) : answer y s = .next { s with y := y, ill := 0 } := rfl

theorem answer_next_iff (y : Port64) (s t : State) : answer y s = .next t ↔ t = { s with y := y, ill := 0 } := by
  rw [answer_eq, Host.Outcome.next.injEq, eq_comm]

theorem answerReserved_eq (s : State) : answerReserved s = .next { s with y := 0, ill := 1 } := rfl

theorem answerReserved_next_iff (s t : State) : answerReserved s = .next t ↔ t = { s with y := 0, ill := 1 } := by
  rw [answerReserved_eq, Host.Outcome.next.injEq, eq_comm]

@[simp] theorem truth64_true : truth64 true = 1 := rfl

@[simp] theorem truth64_false : truth64 false = 0 := rfl

theorem truth64_toNat (t : Bool) : (truth64 t).toNat = t.toNat := by cases t <;> rfl

theorem zext64_toNat {n : Nat} (h : n ≤ 64) (v : BitVec n) : (zext64 v).toNat = v.toNat := by
  rw [zext64, BitVec.toNat_setWidth, Nat.mod_eq_of_lt (lt_of_lt_of_le v.isLt (Nat.pow_le_pow_right (by decide) h))]

/-- A result of width `n` stays below `2^n` on `y` (R39). -/
theorem zext64_lt {n : Nat} (h : n ≤ 64) (v : BitVec n) : (zext64 v).toNat < 2 ^ n := by
  rw [zext64_toNat h]
  exact v.isLt

end Sys2Proof.Machine
end

