-- ==== Sys2Proof/Laws/Exec.lean ====
section
/-! SUPPORT. Once for each operation, everything it can do: it answers a next state that differs only in `y` and `ill`. -/

namespace Sys2Proof.Machine

variable (s : State)

theorem exec_hsign :
    exec .hsign s = .next { s with y := zext64 (sign (operandH s.a)), ill := 0 } := rfl

theorem exec_hexpf :
    exec .hexpf s = .next { s with y := zext64 (expf (operandH s.a)), ill := 0 } := rfl

theorem exec_hmant :
    exec .hmant s = .next { s with y := zext64 (mant (operandH s.a)), ill := 0 } := rfl

theorem exec_hexpu :
    exec .hexpu s = .next { s with y := sext64 (expu (operandH s.a)), ill := 0 } := rfl

theorem exec_hsignif :
    exec .hsignif s = .next { s with y := zext64 (signif (operandH s.a)), ill := 0 } := rfl

theorem exec_hquiet :
    exec .hquiet s = .next { s with y := zext64 (quiet (operandH s.a)), ill := 0 } := rfl

theorem exec_hpayld :
    exec .hpayld s = .next { s with y := zext64 (payload (operandH s.a)), ill := 0 } := rfl

theorem exec_hclass :
    exec .hclass s = .next { s with y := zext64 (classCode (classOf (operandH s.a))), ill := 0 } := rfl

theorem exec_hisnan :
    exec .hisnan s = .next { s with y := truth64 (isNaN (operandH s.a)), ill := 0 } := rfl

theorem exec_hisinf :
    exec .hisinf s = .next { s with y := truth64 (isInf (operandH s.a)), ill := 0 } := rfl

theorem exec_hisfin :
    exec .hisfin s = .next { s with y := truth64 (isFinite (operandH s.a)), ill := 0 } := rfl

theorem exec_hisneg :
    exec .hisneg s = .next { s with y := truth64 (isNegative (operandH s.a)), ill := 0 } := rfl

theorem exec_hisnorm :
    exec .hisnorm s = .next { s with y := truth64 (isNormal (operandH s.a)), ill := 0 } := rfl

theorem exec_hissub :
    exec .hissub s = .next { s with y := truth64 (isSubnormal (operandH s.a)), ill := 0 } := rfl

theorem exec_hwidS :
    exec .hwidS s = .next { s with y := zext64 (widenS (operandH s.a)), ill := 0 } := rfl

theorem exec_hwidD :
    exec .hwidD s = .next { s with y := widenD (operandH s.a), ill := 0 } := by
  rw [show exec .hwidD s = answer (zext64 (widenD (operandH s.a))) s from rfl, answer_eq, zext64, BitVec.setWidth_eq]

theorem exec_hnarS :
    exec .hnarS s = .next { s with y := zext64 (narrowS (operandS s.a)), ill := 0 } := rfl

theorem exec_hnarD :
    exec .hnarD s = .next { s with y := zext64 (narrowD (operandD s.a)), ill := 0 } := rfl

theorem exec_heq :
    exec .heq s = .next { s with y := truth64 (ieeeEq (operandH s.a) s.b), ill := 0 } := rfl

theorem exec_hne :
    exec .hne s = .next { s with y := truth64 (ieeeNe (operandH s.a) s.b), ill := 0 } := rfl

theorem exec_hlt :
    exec .hlt s = .next { s with y := truth64 (ieeeLt (operandH s.a) s.b), ill := 0 } := rfl

theorem exec_hle :
    exec .hle s = .next { s with y := truth64 (ieeeLe (operandH s.a) s.b), ill := 0 } := rfl

theorem exec_hgt :
    exec .hgt s = .next { s with y := truth64 (ieeeGt (operandH s.a) s.b), ill := 0 } := rfl

theorem exec_hge :
    exec .hge s = .next { s with y := truth64 (ieeeGe (operandH s.a) s.b), ill := 0 } := rfl

theorem exec_htot :
    exec .htot s = .next { s with y := sext64 (totalCmp (operandH s.a) s.b), ill := 0 } := rfl

theorem exec_heqv :
    exec .heqv s = .next { s with y := truth64 (valueEq (operandH s.a) s.b), ill := 0 } := rfl

/-- `exec` in one line: every operation answers, and only the outputs differ. -/
theorem exec_answers (i : Instr) : ∃ y, exec i s = .next { s with y := y, ill := 0 } := by
  cases i <;> exact ⟨_, rfl⟩

/-- What a next state of `exec` can be. -/
theorem exec_next {i : Instr} {t : State} (h : exec i s = .next t) : t = { s with y := t.y, ill := 0 } := by
  obtain ⟨y, hy⟩ := exec_answers s i
  cases hy.symm.trans h
  rfl

end Sys2Proof.Machine
end

