-- ==== Sys2Proof/Laws/Fields.lean ====
section
/-! SUPPORT. The fields of a half as arithmetic on its 16-bit number, and their ranges (spec/40_bitmodel.md R49). -/

namespace Sys2Proof.Machine

theorem operandH_toNat (a : Port64) : (operandH a).toNat = a.toNat % 2 ^ 16 := by
  simp [operandH, BitVec.extractLsb'_toNat]

theorem sign_toNat (h : Half) : (sign h).toNat = h.toNat / 2 ^ 15 % 2 := by
  simp [sign, BitVec.extractLsb'_toNat, Nat.shiftRight_eq_div_pow]

theorem expNat_eq (h : Half) : expNat h = h.toNat / 2 ^ 10 % 32 := by
  simp [expNat, expf, BitVec.extractLsb'_toNat, Nat.shiftRight_eq_div_pow]

theorem mantNat_eq (h : Half) : mantNat h = h.toNat % 1024 := by
  simp [mantNat, mant, BitVec.extractLsb'_toNat]

theorem quiet_toNat (h : Half) : (quiet h).toNat = h.toNat / 2 ^ 9 % 2 := by
  simp [quiet, BitVec.extractLsb'_toNat, Nat.shiftRight_eq_div_pow]

theorem payload_toNat (h : Half) : (payload h).toNat = h.toNat % 512 := by
  simp [payload, BitVec.extractLsb'_toNat]

theorem mag_eq (h : Half) : mag h = magOf h := by
  simp [mag, magOf, BitVec.extractLsb'_toNat]

theorem expNat_lt (h : Half) : expNat h < 32 := (expf h).isLt

theorem mantNat_lt (h : Half) : mantNat h < 1024 := (mant h).isLt

theorem mag_lt (h : Half) : mag h < 2 ^ 15 := (h.extractLsb' 0 15).isLt

/-- The exponent field and the mantissa field are the low 15 bits. -/
theorem mag_eq_fields (h : Half) : mag h = expNat h * 1024 + mantNat h := by
  rw [mag_eq, magOf, expNat_eq, mantNat_eq]
  omega

/-- A half is its sign and its low 15 bits. -/
theorem toNat_eq_fields (h : Half) : h.toNat = (sign h).toNat * 2 ^ 15 + mag h := by
  have := h.isLt
  rw [mag_eq, magOf, sign_toNat]
  omega

theorem sign_eq_one_iff (h : Half) : sign h = 1 ↔ 2 ^ 15 ≤ h.toNat := by
  have := h.isLt
  rw [← BitVec.toNat_inj, sign_toNat]
  change _ = 1 ↔ _
  omega

theorem isNegative_iff (h : Half) : isNegative h = true ↔ 2 ^ 15 ≤ h.toNat := by
  rw [isNegative, decide_eq_true_eq, sign_eq_one_iff]

theorem isNaN_iff (h : Half) : isNaN h = true ↔ 0x7C00 < mag h := by
  have := expNat_lt h
  have := mantNat_lt h
  simp only [isNaN, mag_eq_fields, Bool.and_eq_true, decide_eq_true_eq]
  omega

theorem isInf_iff (h : Half) : isInf h = true ↔ mag h = 0x7C00 := by
  have := expNat_lt h
  have := mantNat_lt h
  simp only [isInf, mag_eq_fields, Bool.and_eq_true, decide_eq_true_eq]
  omega

theorem isZero_iff (h : Half) : isZero h = true ↔ mag h = 0 := by
  simp only [isZero, mag_eq_fields, Bool.and_eq_true, decide_eq_true_eq]
  omega

theorem isFinite_iff (h : Half) : isFinite h = true ↔ mag h < 0x7C00 := by
  have h1 := isNaN_iff h
  have h2 := isInf_iff h
  cases hn : isNaN h <;> cases hi : isInf h <;> simp [isFinite, hn, hi] at h1 h2 ⊢ <;> omega

theorem vkey_eq_keyOf (h : Half) : vkey h = keyOf h := by
  simp only [vkey, keyOf, isNegative_iff, mag_eq]

theorem tkey_eq_totalKeyOf (h : Half) : tkey h = totalKeyOf h := by
  simp only [tkey, totalKeyOf, isNegative_iff, mag_eq]

/-- The fields of the half on `a`, read by shifts and masks. -/
theorem sign_operandH (a : Port64) : (sign (operandH a)).toNat = signOf a := by
  rw [sign_toNat, operandH_toNat, signOf]
  omega

theorem expNat_operandH (a : Port64) : expNat (operandH a) = expOf a := by
  rw [expNat_eq, operandH_toNat, expOf]
  omega

theorem mantNat_operandH (a : Port64) : mantNat (operandH a) = mantOf a := by
  rw [mantNat_eq, operandH_toNat, mantOf]
  omega

end Sys2Proof.Machine
end

