-- ==== Sys2Proof/Laws/Values.lean ====
section
/-! SUPPORT. The exact values at the two wide formats, in the numbers of spec/10_state.md R20 and R21. -/

namespace Sys2Proof.Machine

/-- R20's formula for a float32. -/
theorem valWide_float32 (x : Float32Bits) :
    valWide (ew := 8) (mw := 23) x =
      if wideExp (ew := 8) (mw := 23) x = 0 then
        signFactor (wideSign (ew := 8) (mw := 23) x) * wideMant (ew := 8) (mw := 23) x * 2 ^ (-149 : ℤ)
      else
        signFactor (wideSign (ew := 8) (mw := 23) x) * (2 ^ 23 + wideMant (ew := 8) (mw := 23) x) *
          2 ^ ((wideExp (ew := 8) (mw := 23) x : ℤ) - 150) := by
  have h : ∀ e : ℤ, e - (biasOf 8 : ℤ) - ((23 : ℕ) : ℤ) = e - 150 := fun e => by simp [biasOf]; ring
  simp only [valWide, h]
  rfl

/-- R21's formula for a float64. -/
theorem valWide_float64 (x : Float64Bits) :
    valWide (ew := 11) (mw := 52) x =
      if wideExp (ew := 11) (mw := 52) x = 0 then
        signFactor (wideSign (ew := 11) (mw := 52) x) * wideMant (ew := 11) (mw := 52) x * 2 ^ (-1074 : ℤ)
      else
        signFactor (wideSign (ew := 11) (mw := 52) x) * (2 ^ 52 + wideMant (ew := 11) (mw := 52) x) *
          2 ^ ((wideExp (ew := 11) (mw := 52) x : ℤ) - 1075) := by
  have h : ∀ e : ℤ, e - (biasOf 11 : ℤ) - ((52 : ℕ) : ℤ) = e - 1075 := fun e => by simp [biasOf]; ring
  simp only [valWide, h]
  rfl

theorem signFactor_eq (b : Bit) : signFactor b = 1 ∨ signFactor b = -1 := by
  unfold signFactor
  split
  · exact .inr rfl
  · exact .inl rfl

/-- The magnitude of a finite half (R19), whatever its sign. -/
theorem abs_valH (h : Half) :
    |valH h| = if expNat h = 0 then (mantNat h : ℚ) * 2 ^ (-24 : ℤ) else (1024 + mantNat h) * 2 ^ ((expNat h : ℤ) - 25) := by
  have hs : |signFactor (sign h)| = 1 := by rcases signFactor_eq (sign h) with e | e <;> simp [e]
  unfold valH
  split <;> rw [mul_assoc, abs_mul, hs, one_mul, abs_of_nonneg (by positivity)]

end Sys2Proof.Machine
end

