-- ==== Sys2Proof/Laws/Narrow.lean ====
section
/-! SUPPORT. The branches of the narrowing converter (spec/42_narrowing.md R75 to R79), one lemma each, and the halves it
packs. -/

namespace Sys2Proof.Machine

theorem packHalf_toNat (s : Bit) {bits : Nat} (h : bits < 2 ^ 15) : (packHalf s bits).toNat = s.toNat * 2 ^ 15 + bits := by
  rw [packHalf, BitVec.toNat_append, BitVec.toNat_ofNat, Nat.mod_eq_of_lt h, ← Nat.shiftLeft_add_eq_or_of_lt h,
    Nat.shiftLeft_eq]

theorem infHalf_toNat (s : Bit) : (infHalf s).toNat = s.toNat * 2 ^ 15 + 0x7C00 := packHalf_toNat s (by decide)

theorem zeroHalf_toNat (s : Bit) : (zeroHalf s).toNat = s.toNat * 2 ^ 15 := by
  rw [zeroHalf, packHalf_toNat s (by decide), Nat.add_zero]

variable (fill : BitVec 10) {ew mw : Nat} (x : BitVec (1 + ew + mw))

theorem narrowWith_nan (he : wideExp x = onesOf ew) (hm : wideMant x ≠ 0) :
    narrowWith fill ew mw x = narrowNaNWith fill mw (wideSign x) (wideMant x) := by
  simp [narrowWith, he, hm]

theorem narrowWith_inf (he : wideExp x = onesOf ew) (hm : wideMant x = 0) :
    narrowWith fill ew mw x = infHalf (wideSign x) := by
  simp [narrowWith, he, hm]

theorem narrowWith_zero (he : wideExp x ≠ onesOf ew) (h0 : wideExp x = 0) :
    narrowWith fill ew mw x = zeroHalf (wideSign x) := by
  rw [h0] at he
  simp [narrowWith, h0, he]

theorem narrowWith_normal (he : wideExp x ≠ onesOf ew) (h0 : wideExp x ≠ 0) :
    narrowWith fill ew mw x = roundPack mw (wideSign x) ((wideExp x : Int) - biasOf ew) (2 ^ mw + wideMant x) := by
  simp [narrowWith, he, h0]

theorem roundPack_overflow (s : Bit) {e : Int} (sig : Nat) (h : 15 < e) : roundPack mw s e sig = infHalf s := by
  simp [roundPack, h]

theorem roundPack_underflow (s : Bit) {e : Int} (sig : Nat) (h : e < -25) : roundPack mw s e sig = zeroHalf s := by
  have : ¬15 < e := by omega
  simp [roundPack, h, this]

theorem roundPack_inRange (s : Bit) {e : Int} (sig : Nat) (h : -25 ≤ e) (h' : e ≤ 15) :
    roundPack mw s e sig = packHalf s (roundBits mw e sig) := by
  have h1 : ¬15 < e := by omega
  have h2 : ¬e < -25 := by omega
  simp [roundPack, h1, h2]

end Sys2Proof.Machine
end

