-- ==== Sys2Proof/Laws/PerInstr.lean ====
section
/-! SUPPORT. The family Coding: what each operation's command word is made of (spec/30_encoding.md R37, R40, R41). -/

namespace Sys2Proof.Laws.Coding

/-- The two nibbles of the operation's word are its group and its function, the word is outside the reserved ranges, and the
word is of a group 0 to 4. -/
def Statement (i : Instr) : Prop :=
  cmdGrp (encode i) = i.grp ∧ cmdFn (encode i) = i.fn ∧ i.wf = true ∧ i.grp.toNat ≤ 4

theorem hsign : Statement .hsign := ⟨rfl, rfl, rfl, by decide⟩
theorem hexpf : Statement .hexpf := ⟨rfl, rfl, rfl, by decide⟩
theorem hmant : Statement .hmant := ⟨rfl, rfl, rfl, by decide⟩
theorem hexpu : Statement .hexpu := ⟨rfl, rfl, rfl, by decide⟩
theorem hsignif : Statement .hsignif := ⟨rfl, rfl, rfl, by decide⟩
theorem hquiet : Statement .hquiet := ⟨rfl, rfl, rfl, by decide⟩
theorem hpayld : Statement .hpayld := ⟨rfl, rfl, rfl, by decide⟩
theorem hclass : Statement .hclass := ⟨rfl, rfl, rfl, by decide⟩
theorem hisnan : Statement .hisnan := ⟨rfl, rfl, rfl, by decide⟩
theorem hisinf : Statement .hisinf := ⟨rfl, rfl, rfl, by decide⟩
theorem hisfin : Statement .hisfin := ⟨rfl, rfl, rfl, by decide⟩
theorem hisneg : Statement .hisneg := ⟨rfl, rfl, rfl, by decide⟩
theorem hisnorm : Statement .hisnorm := ⟨rfl, rfl, rfl, by decide⟩
theorem hissub : Statement .hissub := ⟨rfl, rfl, rfl, by decide⟩
theorem hwidS : Statement .hwidS := ⟨rfl, rfl, rfl, by decide⟩
theorem hwidD : Statement .hwidD := ⟨rfl, rfl, rfl, by decide⟩
theorem hnarS : Statement .hnarS := ⟨rfl, rfl, rfl, by decide⟩
theorem hnarD : Statement .hnarD := ⟨rfl, rfl, rfl, by decide⟩
theorem heq : Statement .heq := ⟨rfl, rfl, rfl, by decide⟩
theorem hne : Statement .hne := ⟨rfl, rfl, rfl, by decide⟩
theorem hlt : Statement .hlt := ⟨rfl, rfl, rfl, by decide⟩
theorem hle : Statement .hle := ⟨rfl, rfl, rfl, by decide⟩
theorem hgt : Statement .hgt := ⟨rfl, rfl, rfl, by decide⟩
theorem hge : Statement .hge := ⟨rfl, rfl, rfl, by decide⟩
theorem htot : Statement .htot := ⟨rfl, rfl, rfl, by decide⟩
theorem heqv : Statement .heqv := ⟨rfl, rfl, rfl, by decide⟩

end Sys2Proof.Laws.Coding
end

