-- ==== Sys2Proof/Laws/State.lean ====
section
/-! SUPPORT. The small lemmas of the state: one per field per update. -/

namespace Sys2Proof.Machine

variable (s : State) (o : Outputs) (i : Inputs)

@[simp] theorem State.respond_cmd : (s.respond o).cmd = s.cmd := rfl
@[simp] theorem State.respond_a : (s.respond o).a = s.a := rfl
@[simp] theorem State.respond_b : (s.respond o).b = s.b := rfl
@[simp] theorem State.respond_y : (s.respond o).y = o.y := rfl
@[simp] theorem State.respond_ill : (s.respond o).ill = o.ill := rfl
@[simp] theorem State.respond_inputs : (s.respond o).inputs = s.inputs := rfl
@[simp] theorem State.respond_outputs : (s.respond o).outputs = o := rfl
@[simp] theorem State.drive_cmd : (s.drive i).cmd = i.cmd := rfl
@[simp] theorem State.drive_a : (s.drive i).a = i.a := rfl
@[simp] theorem State.drive_b : (s.drive i).b = i.b := rfl
@[simp] theorem State.drive_y : (s.drive i).y = s.y := rfl
@[simp] theorem State.drive_ill : (s.drive i).ill = s.ill := rfl
@[simp] theorem State.drive_inputs : (s.drive i).inputs = i := rfl
@[simp] theorem State.drive_outputs : (s.drive i).outputs = s.outputs := rfl

@[simp] theorem State.respond_respond (o' : Outputs) : (s.respond o).respond o' = s.respond o' := rfl
@[simp] theorem State.drive_drive (i' : Inputs) : (s.drive i).drive i' = s.drive i' := rfl

/-- What a transaction left on the outputs is gone once the next has answered. -/
theorem State.respond_drive_respond (o' : Outputs) :
    ((s.respond o).drive i).respond o' = (s.drive i).respond o' := rfl

end Sys2Proof.Machine
end

