-- ==== Sys2Proof/Laws/Step.lean ====
section
/-! SUPPORT. What a step can do: run the decoded operation, or answer a reserved command. -/

namespace Sys2Proof.Machine

theorem step_of_op {s : State} {i : Instr} (h : decode s.cmd = .op i) : step s = exec i s := by
  rw [step, h]

theorem step_of_reserved {s : State} {r : Reserved} (h : decode s.cmd = .reserved r) :
    step s = .next { s with y := 0, ill := 1 } := by
  rw [step, h, answerReserved_eq]

/-- A step always answers, and only the outputs differ (R15, R112). -/
theorem step_answers (s : State) : ∃ o : Outputs, step s = .next (s.respond o) := by
  cases h : decode s.cmd with
  | op i =>
    obtain ⟨y, hy⟩ := exec_answers s i
    exact ⟨⟨y, 0⟩, (step_of_op h).trans hy⟩
  | reserved r => exact ⟨⟨0, 1⟩, step_of_reserved h⟩

/-- The inputs of a defined command read as its operation and the operands its form reads. -/
theorem readWritten_of_op {i : Inputs} {op : Instr} (h : decode i.cmd = .op op) :
    readWritten i = some ⟨op, operandsOf op.operandForm i.a i.b⟩ := by
  rw [readWritten, h]

theorem readWritten_of_reserved {i : Inputs} {r : Reserved} (h : decode i.cmd = .reserved r) : readWritten i = none := by
  rw [readWritten, h]

/-- The word placed for the next step is the command it takes. -/
@[simp] theorem withFetchWord_cmd (s : State) (nbits w : Nat) :
    (s.withFetchWord nbits w).cmd = BitVec.ofNat 8 (w % 2 ^ nbits) := rfl

/-- A table word that decodes to an operation is the operation the next step runs. -/
theorem step_withFetchWord {s : State} {nbits w : Nat} {i : Instr} (h : decodeTableWord nbits w = some i) :
    step (s.withFetchWord nbits w) = exec i (s.withFetchWord nbits w) := by
  refine step_of_op ?_
  rw [withFetchWord_cmd]
  unfold decodeTableWord at h
  split at h
  · split at h
    · rename_i hd
      rw [hd, Option.some.inj h]
    · cases h
  · cases h

end Sys2Proof.Machine
end

