-- ==== Sys2Proof/Tests/Slice0.lean ====
section
/-! SUPPORT. Small tests: command words written out from spec/30_encoding.md R40, ill-formed terms the checks refuse, at most
two one-step tests per operation with results from spec/95_test_vectors.md and the rules' examples, and a witness for every
statement with hypotheses. -/

namespace Sys2Proof.Tests

open Sys2Proof.Machine

/-- A state with the given operands on the ports, and outputs that no test expects. -/
def onPorts (a : Port64) (b : Half) : State := { cmd := 0xFF, a := a, b := b, y := 0xBADBADBADBADBAD, ill := 1 }

/-- What the host reads after a step that answers. -/
def outputsOf (o : Host.Outcome State Fault Refusal) : Option Outputs :=
  match o with
  | .next t => some t.outputs
  | .fault _ => none
  | .refused _ => none

/-- One transaction from a state with the given ports, the command given as a word. -/
def transactWord (w : Cmd) (a : Port64) (b : Half) : Option Outputs := outputsOf (step { onPorts a b with cmd := w })

/-! ## Words written out bit by bit from R37 and R40 -/

theorem test_word_hsign : decode 0b00000000#8 = .op .hsign := by decide
theorem test_word_hexpf : decode 0b00000001#8 = .op .hexpf := by decide
theorem test_word_hmant : decode 0b00000010#8 = .op .hmant := by decide
theorem test_word_hexpu : decode 0b00000011#8 = .op .hexpu := by decide
theorem test_word_hsignif : decode 0b00000100#8 = .op .hsignif := by decide
theorem test_word_hquiet : decode 0b00000101#8 = .op .hquiet := by decide
theorem test_word_hpayld : decode 0b00000110#8 = .op .hpayld := by decide
theorem test_word_hclass : decode 0b00010000#8 = .op .hclass := by decide
theorem test_word_hisnan : decode 0b00010001#8 = .op .hisnan := by decide
theorem test_word_hisinf : decode 0b00010010#8 = .op .hisinf := by decide
theorem test_word_hisfin : decode 0b00010011#8 = .op .hisfin := by decide
theorem test_word_hisneg : decode 0b00010100#8 = .op .hisneg := by decide
theorem test_word_hisnorm : decode 0b00010101#8 = .op .hisnorm := by decide
theorem test_word_hissub : decode 0b00010110#8 = .op .hissub := by decide
theorem test_word_hwidS : decode 0b00100000#8 = .op .hwidS := by decide
theorem test_word_hwidD : decode 0b00100001#8 = .op .hwidD := by decide
theorem test_word_hnarS : decode 0b00110000#8 = .op .hnarS := by decide
theorem test_word_hnarD : decode 0b00110001#8 = .op .hnarD := by decide
theorem test_word_heq : decode 0b01000000#8 = .op .heq := by decide
theorem test_word_hne : decode 0b01000001#8 = .op .hne := by decide
theorem test_word_hlt : decode 0b01000010#8 = .op .hlt := by decide
theorem test_word_hle : decode 0b01000011#8 = .op .hle := by decide
theorem test_word_hgt : decode 0b01000100#8 = .op .hgt := by decide
theorem test_word_hge : decode 0b01000101#8 = .op .hge := by decide
theorem test_word_htot : decode 0b01000110#8 = .op .htot := by decide
theorem test_word_heqv : decode 0b01000111#8 = .op .heqv := by decide

theorem test_word_encodes : encode .hnarD = 0b00110001#8 ∧ encode .htot = 0b01000110#8 := by decide

theorem test_reserved_named : decode 0x07 = .reserved (.function 0 7) ∧ decode 0x22 = .reserved (.function 2 2) ∧
    decode 0x48 = .reserved (.function 4 8) ∧ decode 0x50 = .reserved (.group 5 0) ∧
    decode 0xFF = .reserved (.group 15 15) := by decide

theorem test_table_word : decodeTableWord 8 0x46 = some .htot ∧ decodeTableWord 8 0x47 = some .heqv ∧
    decodeTableWord 8 0x48 = none := by decide

theorem test_withFetchWord : outputsOf (step (State.reset.withFetchWord 8 0x13)) = some ⟨1, 0⟩ := by decide

/-! ## Ill-formed terms the checks refuse -/

theorem smoke_reserved_words_refused : ([0x07, 0x0F, 0x17, 0x22, 0x2F, 0x32, 0x48, 0x50, 0xFF].map cmdDefined) =
    [false, false, false, false, false, false, false, false, false] := by decide

theorem smoke_defined_words_accepted : ([0x06, 0x16, 0x21, 0x31, 0x47].map cmdDefined) = [true, true, true, true, true] := by
  decide

theorem smoke_too_few_operands : (Written.mk .htot [0x7BFF]).wf = false := by decide

theorem smoke_too_many_operands : (Written.mk .hisnan [0xFE00, 0xFE00]).wf = false := by decide

theorem smoke_half_too_wide : (Written.mk .hisnan [0x10000]).wf = false := by decide

theorem smoke_float32_too_wide : (Written.mk .hnarS [0x100000000]).wf = false := by decide

theorem smoke_float64_too_wide : (Written.mk .hnarD [0x10000000000000000]).wf = false := by decide

theorem smoke_right_operand_too_wide : (Written.mk .heq [0x3C00, 0x10000]).wf = false := by decide

theorem smoke_well_formed : (Written.mk .htot [0x7BFF, 0xFE00]).wf = true ∧ (Written.mk .hnarS [0xFFFFFFFF]).wf = true := by
  decide

/-! ## One step per operation (spec/95_test_vectors.md sections 2.1 to 2.6) -/

theorem test_hsign_first : transactWord 0x00 0xDEADBEEFCAFE8000 0x1234 = some ⟨0x1, 0⟩ := by decide
theorem test_hsign_second : transactWord 0x00 0x7BFF 0x0 = some ⟨0x0, 0⟩ := by decide
theorem test_hexpf_first : transactWord 0x01 0x6404 0x0 = some ⟨0x19, 0⟩ := by decide
theorem test_hexpf_second : transactWord 0x01 0xFBFF 0x0 = some ⟨0x1E, 0⟩ := by decide
theorem test_hmant_first : transactWord 0x02 0x3555 0x0 = some ⟨0x155, 0⟩ := by decide
theorem test_hmant_second : transactWord 0x02 0xFFFF 0x0 = some ⟨0x3FF, 0⟩ := by decide
theorem test_hexpu_first : transactWord 0x03 0x1 0x0 = some ⟨0xFFFFFFFFFFFFFFF2, 0⟩ := by decide
theorem test_hexpu_second : transactWord 0x03 0x7C00 0x0 = some ⟨0x10, 0⟩ := by decide
theorem test_hsignif_first : transactWord 0x04 0x400 0x0 = some ⟨0x400, 0⟩ := by decide
theorem test_hsignif_second : transactWord 0x04 0x7E00 0x0 = some ⟨0x200, 0⟩ := by decide
theorem test_hquiet_first : transactWord 0x05 0xFE00 0x0 = some ⟨0x1, 0⟩ := by decide
theorem test_hquiet_second : transactWord 0x05 0x7DFF 0x0 = some ⟨0x0, 0⟩ := by decide
theorem test_hpayld_first : transactWord 0x06 0x7EAA 0x0 = some ⟨0xAA, 0⟩ := by decide
theorem test_hpayld_second : transactWord 0x06 0x83FF 0x0 = some ⟨0x1FF, 0⟩ := by decide
theorem test_hclass_first : transactWord 0x10 0xFBFF 0x0 = some ⟨0x8, 0⟩ := by decide
theorem test_hclass_second : transactWord 0x10 0x7E00 0x0 = some ⟨0x2, 0⟩ := by decide
theorem test_hisnan_first : transactWord 0x11 0xFC01 0x0 = some ⟨0x1, 0⟩ := by decide
theorem test_hisnan_second : transactWord 0x11 0xFC00 0x0 = some ⟨0x0, 0⟩ := by decide
theorem test_hisinf_first : transactWord 0x12 0xFC00 0x0 = some ⟨0x1, 0⟩ := by decide
theorem test_hisinf_second : transactWord 0x12 0x7C01 0x0 = some ⟨0x0, 0⟩ := by decide
theorem test_hisfin_first : transactWord 0x13 0x7BFF 0x0 = some ⟨0x1, 0⟩ := by decide
theorem test_hisfin_second : transactWord 0x13 0xFE00 0x0 = some ⟨0x0, 0⟩ := by decide
theorem test_hisneg_first : transactWord 0x14 0x8000 0x0 = some ⟨0x1, 0⟩ := by decide
theorem test_hisneg_second : transactWord 0x14 0x7E00 0x0 = some ⟨0x0, 0⟩ := by decide
theorem test_hisnorm_first : transactWord 0x15 0x8400 0x0 = some ⟨0x1, 0⟩ := by decide
theorem test_hisnorm_second : transactWord 0x15 0x3FF 0x0 = some ⟨0x0, 0⟩ := by decide
theorem test_hissub_first : transactWord 0x16 0x83FF 0x0 = some ⟨0x1, 0⟩ := by decide
theorem test_hissub_second : transactWord 0x16 0x8000 0x0 = some ⟨0x0, 0⟩ := by decide
theorem test_hwidS_first : transactWord 0x20 0xFFFFFFFFFFFF3C00 0xFFFF = some ⟨0x3F800000, 0⟩ := by decide
theorem test_hwidS_second : transactWord 0x20 0x3FF 0x0 = some ⟨0x387FC000, 0⟩ := by decide
theorem test_hwidD_first : transactWord 0x21 0x8001 0x0 = some ⟨0xBE70000000000000, 0⟩ := by decide
theorem test_hwidD_second : transactWord 0x21 0xFD55 0x0 = some ⟨0xFFF5540000000000, 0⟩ := by decide
theorem test_hnarS_first : transactWord 0x30 0xFFFFFFFF44807000 0xFFFF = some ⟨0x6404, 0⟩ := by decide
theorem test_hnarS_second : transactWord 0x30 0x387FE000 0x0 = some ⟨0x400, 0⟩ := by decide
theorem test_hnarD_first : transactWord 0x31 0x3FF0020000001000 0x0 = some ⟨0x3C01, 0⟩ := by decide
theorem test_hnarD_second : transactWord 0x31 0x7FF0000000000001 0x0 = some ⟨0x7E00, 0⟩ := by decide
theorem test_heq_first : transactWord 0x40 0x0 0x8000 = some ⟨0x1, 0⟩ := by decide
theorem test_heq_second : transactWord 0x40 0xFE00 0xFE00 = some ⟨0x0, 0⟩ := by decide
theorem test_hne_first : transactWord 0x41 0xFE00 0xFE00 = some ⟨0x1, 0⟩ := by decide
theorem test_hne_second : transactWord 0x41 0x0 0x8000 = some ⟨0x0, 0⟩ := by decide
theorem test_hlt_first : transactWord 0x42 0x8001 0x8000 = some ⟨0x1, 0⟩ := by decide
theorem test_hlt_second : transactWord 0x42 0x8000 0x0 = some ⟨0x0, 0⟩ := by decide
theorem test_hle_first : transactWord 0x43 0x8000 0x0 = some ⟨0x1, 0⟩ := by decide
theorem test_hle_second : transactWord 0x43 0x7E00 0xFC01 = some ⟨0x0, 0⟩ := by decide
theorem test_hgt_first : transactWord 0x44 0x83FF 0x8400 = some ⟨0x1, 0⟩ := by decide
theorem test_hgt_second : transactWord 0x44 0x7C00 0x7E00 = some ⟨0x0, 0⟩ := by decide
theorem test_hge_first : transactWord 0x45 0x0 0x8000 = some ⟨0x1, 0⟩ := by decide
theorem test_hge_second : transactWord 0x45 0x3C00 0x4000 = some ⟨0x0, 0⟩ := by decide
theorem test_htot_first : transactWord 0x46 0xFE00 0x0 = some ⟨0xFFFFFFFFFFFFFFFF, 0⟩ := by decide
theorem test_htot_second : transactWord 0x46 0xFBFF 0xFC00 = some ⟨0x1, 0⟩ := by decide
theorem test_heqv_first : transactWord 0x47 0x7E00 0xFC01 = some ⟨0x1, 0⟩ := by decide
theorem test_heqv_second : transactWord 0x47 0x3C00 0x3C01 = some ⟨0x0, 0⟩ := by decide

theorem test_reserved_answers : transactWord 0x50 0xFFFFFFFFFFFFFFFF 0xFFFF = some ⟨0, 1⟩ ∧
    transactWord 0x48 0x3C00 0x3C00 = some ⟨0, 1⟩ := by decide

/-- Program P1 of spec/95_test_vectors.md, the host copying `y` to `a`. -/
theorem test_program_p1 : session State.reset
    [⟨0x20, 0x0001, 0⟩, ⟨0x30, 0x33800000, 0⟩, ⟨0x47, 0x0001, 0x0001⟩, ⟨0x46, 0x0001, 0x0001⟩] =
    [⟨0x33800000, 0⟩, ⟨0x0001, 0⟩, ⟨1, 0⟩, ⟨0, 0⟩] := by decide

/-! ## A witness for every statement with hypotheses -/

theorem witness_StepRunsTheDecodedOperation :
    decode ((onPorts 0 0).withFetchWord 8 0x31).cmd = .op .hnarD := by decide

theorem witness_ReservedCommandsGiveIllAndZero :
    cmdDefined (onPorts 0 0).cmd = false ∧ cmdDefined State.reset.cmd = true := by decide

theorem witness_InputBitsOutsideTheOperandFormAreIgnored :
    (0xFFFFFFFFFFFF3C00 : Port64).extractLsb' 0 16 = (0x3C00 : Port64).extractLsb' 0 16 ∧ (0xFFFFFFFF44807000 :
    Port64).extractLsb' 0 32 = (0x44807000 : Port64).extractLsb' 0 32 := by decide

theorem witness_EqualInputsGiveEqualOutputs :
    State.reset.inputs = { State.reset with y := 5, ill := 1 }.inputs ∧ State.reset ≠ { State.reset with y := 5, ill
    := 1 } := by decide

theorem witness_LatencyOnlyDelaysTheOutputs :
    [Inputs.mk 0 0 0].length + 1 < [Inputs.mk 0 0 0, ⟨1, 0, 0⟩, ⟨2, 0, 0⟩].length ∧
    [Inputs.mk 0 0 0, ⟨1, 0, 0⟩, ⟨2, 0, 0⟩][1]? = some ⟨1, 0, 0⟩ ∧
    (pipeOutputs [⟨0xFF, 0, 0⟩] [⟨0, 0, 0⟩, ⟨1, 0, 0⟩, ⟨2, 0, 0⟩])[1 + 1]? = some ⟨0, 0⟩ := by decide

theorem witness_WrittenOperandsReachTheOperation :
    (Written.mk .hnarD [0xFFFFFFFFFFFFFFFF]).wf = true ∧ (Written.mk .hnarS [0xFFFFFFFF]).wf = true ∧ (Written.mk
    .hsign [0xFFFF]).wf = true ∧ (Written.mk .heqv [0xFFFF, 0xFFFF]).wf = true := by decide

/-- R43's examples as ports; the bits of `a` above a half and all of `b` are not read. -/
theorem witness_WrittenTransactionsReadBack :
    (Written.mk .htot [0x7BFF, 0xFE00]).wf = true ∧
    readWritten ⟨0x46, 0xFFFFFFFFFFFF7BFF, 0xFE00⟩ = some ⟨.htot, [0x7BFF, 0xFE00]⟩ ∧
    readWritten ⟨0x30, 0xFFFFFFFF44807000, 0x1234⟩ = some ⟨.hnarS, [0x44807000]⟩ ∧
    readWritten ⟨0x48, 0, 0⟩ = none := by decide

theorem witness_HexpuReturnsUnbiasedExponent :
    expOf (onPorts 0x7C00 0).a = 31 ∧ expOf (onPorts 0x8000 0).a = 0 ∧ expOf (onPorts 0x0400 0).a = 1 := by decide

theorem witness_HsignifReturnsSignificandOfTheValue :
    expOf (onPorts 0x0001 0).a ≠ 31 ∧ expOf (onPorts 0x7BFF 0).a ≠ 31 := by decide

theorem witness_HclassReturnsTheClassCode :
    ([0x7C00, 0xFC00, 0x7C01, 0x0000, 0x8000, 0x03FF, 0x8001, 0x0400, 0xFBFF] : List Port64).map (fun a => (expOf a,
    decide (mantOf a = 0), signOf a)) = [(31, true, 0), (31, true, 1), (31, false, 0), (0, true, 0), (0, true, 1), (0,
    false, 0), (0, false, 1), (1, true, 0), (30, false, 1)] := by decide

theorem witness_CategoriesPartitionTheHalves :
    isNaN 0x7C01 = true ∧ quiet 0x7C01 = 0 ∧ isNaN 0xFE00 = true := by decide

theorem witness_WideningOfZeros :
    expOf (onPorts 0x8000 0).a = 0 ∧ mantOf (onPorts 0x8000 0).a = 0 := by decide

theorem witness_WideningOfSubnormals :
    expOf (onPorts 0x03FF 0).a = 0 ∧ 2 ^ 9 ≤ mantOf (onPorts 0x03FF 0).a ∧ mantOf (onPorts 0x03FF 0).a < 2 ^ (9 + 1) ∧
    2 ^ 0 ≤ mantOf (onPorts 0x8001 0).a ∧ mantOf (onPorts 0x8001 0).a < 2 ^ (0 + 1) := by decide

theorem witness_WideningOfInfinitiesAndNaNs :
    expOf (onPorts 0x7C01 0).a = 31 ∧ expOf (onPorts 0xFC00 0).a = 31 := by decide

theorem witness_WideningOfNormals :
    1 ≤ expOf (onPorts 0x0400 0).a ∧ expOf (onPorts 0xFBFF 0).a ≤ 30 := by decide

theorem witness_WideningIsExact :
    isFinite 0x03FF = true ∧ isSubnormal 0x03FF = true ∧ isNormal 0x7BFF = true ∧ isZero 0x8000 = true ∧ isNaN 0x7C01
    = true := by decide

theorem witness_NarrowingOfNaNs :
    wideNaN (ew := 8) (mw := 23) 0x7F801FFF = true ∧ wideMant (ew := 8) (mw := 23) 0x7F801FFF / 2 ^ 13 = 0 ∧ wideNaN
    (ew := 11) (mw := 52) 0xFFF0040000000000 = true ∧ wideMant (ew := 11) (mw := 52) 0xFFF0040000000000 / 2 ^ 42 = 1 := by decide

theorem witness_NarrowingKeepsNaNsForAnyFill :
    (0x001 : BitVec 10) ≠ 0 := by decide

theorem witness_NarrowingOfInfinitiesZerosAndSubnormals :
    wideInf (ew := 8) (mw := 23) 0xFF800000 = true ∧ wideExp (ew := 8) (mw := 23) 0x807FFFFF = 0 ∧ wideInf (ew := 11)
    (mw := 52) 0x7FF0000000000000 = true ∧ wideExp (ew := 11) (mw := 52) 0 = 0 := by decide

theorem witness_RoundingUsesGuardAndSticky :
    (1 : Nat) ≤ 13 ∧ (10 : Nat) ≤ 23 ∧ 2 ^ 23 ≤ 0xFFFFFF ∧ 0xFFFFFF < 2 ^ (23 + 1) ∧ (-25 : Int) ≤ 15 := by decide

theorem witness_ValueKeyOrdersByValue :
    isNaN 0x7C00 = false ∧ isNaN 0xFC00 = false := by decide

theorem witness_HleAndHgeCompareWeakly :
    isNaN 0x3C00 = false ∧ isNaN 0x8000 = false ∧ isNaN 0xFE00 = true := by decide

theorem witness_OperatorsCompareExactValues :
    isNaN 0xFE00 = true ∧ isNaN (onPorts 0 0x7C00).b = false := by decide

theorem witness_TotalOrderIsRtsOrder :
    isNaN 0xFC01 = true ∧ isNaN 0xFC00 = false := by decide

theorem witness_HtotReturnsTheThreeWayResult :
    totalCmp 0xFE00 0x8000 ≤ 0 ∧ totalCmp 0x8000 0x0000 ≤ 0 := by decide

theorem witness_TotalOrderAgreesWithTheOperators :
    isNaN 0x8000 = false ∧ isNaN 0x0000 = false ∧ ieeeLt 0xFC00 0xFBFF = true ∧ totalCmp 0x8000 0x0000 = -1 ∧ isNaN
    0x7C01 = true := by decide

theorem witness_ComparatorSummaryTable :
    (onPorts 0xFFFFFFFFFFFF3C00 0x4000).a.extractLsb' 0 16 = (0x3C00 : Half) ∧ (onPorts 0xFFFFFFFFFFFF3C00 0x4000).b =
    0x4000 := by decide

theorem witness_EveryStepSettlesTheOutputs :
    (∃ t, step (onPorts 0 0) = .next t) ∧ Settled State.reset ∧ ¬Settled { State.reset with y := 1 } :=
  ⟨⟨_, rfl⟩, rfl, by unfold Settled; decide⟩

theorem witness_OrderAndInterleavingChangeNoAnswer : [Inputs.mk 0 1 2, ⟨3, 4, 5⟩].Perm [⟨3, 4, 5⟩, ⟨0, 1, 2⟩] := by decide

theorem witness_WideningIsInjectiveAndConsistent :
    ∃ s s' : State, s ≠ s' ∧ exec .hwidS s = .next { s with y := 0x3F800000, ill := 0 } ∧
      exec .hwidS s' = .next { s' with y := 0x3F800000, ill := 0 } :=
  ⟨onPorts 0x3C00 0, onPorts 0x13C00 1, by decide, by rfl, by rfl⟩

/-- R80: each line of the underflow table has a source, at its boundary. -/
theorem witness_UnderflowIsRoundToNearestEven :
    (wideFinite (ew := 8) (mw := 23) 0x32FFFFFF = true ∧ |valWide (ew := 8) (mw := 23) 0x32FFFFFF| < 2 ^ (-25 : ℤ)) ∧
    |valWide (ew := 8) (mw := 23) 0xB3000000| = 2 ^ (-25 : ℤ) ∧
    (2 ^ (-25 : ℤ) < |valWide (ew := 8) (mw := 23) 0x33000001| ∧
      |valWide (ew := 8) (mw := 23) 0x33000001| < 2 ^ (-24 : ℤ)) ∧
    |valWide (ew := 8) (mw := 23) 0x33C00000| = 3 * 2 ^ (-25 : ℤ) := by
  decide +kernel

/-- R81, R82, R85: finite sources at and just below the overflow threshold. -/
theorem witness_OverflowSaturatesFrom65520 :
    (wideFinite (ew := 8) (mw := 23) 0xC77FF000 = true ∧ 65520 ≤ |valWide (ew := 8) (mw := 23) 0xC77FF000|) ∧
    (wideFinite (ew := 11) (mw := 52) 0x40EFFDFFFFFFFFFF = true ∧
      |valWide (ew := 11) (mw := 52) 0x40EFFDFFFFFFFFFF| < 65520) := by
  decide +kernel

theorem witness_NarrowingComputesMagbits :
    wideFinite (ew := 8) (mw := 23) 0x387FE000 = true ∧ wideInf (ew := 11) (mw := 52) 0xFFF0000000000000 = true := by decide

theorem witness_NarrowingIsNearestTiesToEven :
    wideFinite (ew := 8) (mw := 23) 0x44807000 = true ∧ |valWide (ew := 8) (mw := 23) 0x44807000| < 65520 ∧
    isFinite 0x6403 = true ∧
    |valWide (ew := 8) (mw := 23) 0x44807000 - valH 0x6404| = |valWide (ew := 8) (mw := 23) 0x44807000 - valH 0x6403| := by
  decide +kernel

/-- The same midpoint as a float64. -/
theorem witness_NarrowingIsNearestTiesToEven_float64 :
    wideFinite (ew := 11) (mw := 52) 0x40900E0000000000 = true ∧
    |valWide (ew := 11) (mw := 52) 0x40900E0000000000| < 65520 ∧
    |valWide (ew := 11) (mw := 52) 0x40900E0000000000 - valH 0x6404| =
      |valWide (ew := 11) (mw := 52) 0x40900E0000000000 - valH 0x6403| := by
  decide +kernel

/-- The two float32 neighbours of R86's midpoint. -/
theorem witness_DoubleRoundingExampleDiffers :
    wideFinite (ew := 8) (mw := 23) 0x3F801001 = true ∧ (0x3F801001 : Float32Bits) ≠ 0x3F801000 ∧
    wideFinite (ew := 8) (mw := 23) 0x3F800FFF = true ∧ (0x3F800FFF : Float32Bits) ≠ 0x3F801000 := by
  decide

theorem witness_NarrowingIsMonotone :
    wideNaN (ew := 8) (mw := 23) ((onPorts 0xFF800000 0).a.extractLsb' 0 32) = false ∧
    wideNaN (ew := 8) (mw := 23) ((onPorts 0x33000000 0).a.extractLsb' 0 32) = false ∧
    extWide (ew := 8) (mw := 23) ((onPorts 0xFF800000 0).a.extractLsb' 0 32) ≤
      extWide (ew := 8) (mw := 23) ((onPorts 0x33000000 0).a.extractLsb' 0 32) ∧
    wideNaN (ew := 11) (mw := 52) (onPorts 0xFFF0000000000000 0).a = false ∧
    wideNaN (ew := 11) (mw := 52) (onPorts 0 0).a = false ∧
    extWide (ew := 11) (mw := 52) (onPorts 0xFFF0000000000000 0).a ≤ extWide (ew := 11) (mw := 52) (onPorts 0 0).a :=
  ⟨by decide, by decide, bot_le, by decide, by decide, bot_le⟩

theorem witness_NarrowingIsExactWhenRepresentable :
    wideFinite (ew := 8) (mw := 23) 0x387FC000 = true ∧ isFinite 0x03FF = true ∧
    sign 0x03FF = wideSign (ew := 8) (mw := 23) 0x387FC000 ∧ valH 0x03FF = valWide (ew := 8) (mw := 23) 0x387FC000 := by
  decide +kernel

theorem witness_NarrowingWidthsAgree :
    (wideSign (ew := 11) (mw := 52) (onPorts 0x40900E0000000000 0).a =
        wideSign (ew := 8) (mw := 23) ((onPorts 0x44807000 0).a.extractLsb' 0 32) ∧
      wideFinite (ew := 8) (mw := 23) ((onPorts 0x44807000 0).a.extractLsb' 0 32) = true ∧
      wideFinite (ew := 11) (mw := 52) (onPorts 0x40900E0000000000 0).a = true ∧
      valWide (ew := 11) (mw := 52) (onPorts 0x40900E0000000000 0).a =
        valWide (ew := 8) (mw := 23) ((onPorts 0x44807000 0).a.extractLsb' 0 32)) ∧
    (wideExp (ew := 8) (mw := 23) ((onPorts 0x7FD54000 0).a.extractLsb' 0 32) = 255 ∧
      wideExp (ew := 11) (mw := 52) (onPorts 0x7FFAA80000000000 0).a = 2047 ∧
      wideMant (ew := 11) (mw := 52) (onPorts 0x7FFAA80000000000 0).a =
        wideMant (ew := 8) (mw := 23) ((onPorts 0x7FD54000 0).a.extractLsb' 0 32) * 2 ^ 29) := by
  decide +kernel

end Sys2Proof.Tests
end

section
/-! The categories of R22 by their fields, and how many halves fall in each. -/

namespace Sys2Proof.Machine

/-! ### A half is a sign and a magnitude -/

theorem sign_packHalf (s : Bit) {bits : Nat} (hb : bits < 2 ^ 15) : sign (packHalf s bits) = s := by
  have := s.isLt
  rw [← BitVec.toNat_inj, sign_toNat, packHalf_toNat s hb]
  omega

theorem mag_packHalf (s : Bit) {bits : Nat} (hb : bits < 2 ^ 15) : mag (packHalf s bits) = bits := by
  rw [mag_eq, magOf, packHalf_toNat s hb]
  omega

theorem packHalf_sign_mag (h : Half) : packHalf (sign h) (mag h) = h := by
  rw [← BitVec.toNat_inj, packHalf_toNat _ (mag_lt h), ← toNat_eq_fields]

/-- Each magnitude is that of two halves, one of each sign. -/
theorem card_filter_of_mag_range {p : Half → Bool} {lo hi : Nat} (hhi : hi ≤ 2 ^ 15)
    (hp : ∀ h, p h = true ↔ lo ≤ mag h ∧ mag h < hi) :
    (Finset.univ.filter fun h : Half => p h).card = 2 * (hi - lo) := by
  have hbij : (Finset.univ.filter fun h : Half => p h).card =
      ((Finset.univ : Finset Bit) ×ˢ Finset.Ico lo hi).card := by
    refine Finset.card_nbij' (fun h => (sign h, mag h)) (fun q => packHalf q.1 q.2) ?maps ?mapsBack ?leftInv ?rightInv
    case maps =>
      intro h hh
      simpa [hp] using hh
    case mapsBack =>
      rintro ⟨s, bits⟩ hq
      have hbits : lo ≤ bits ∧ bits < hi := by simpa using hq
      simpa [hp, mag_packHalf s (hbits.2.trans_le hhi)] using hbits
    case leftInv => exact fun h _ => packHalf_sign_mag h
    case rightInv =>
      rintro ⟨s, bits⟩ hq
      have hbits : lo ≤ bits ∧ bits < hi := by simpa using hq
      have hlt := hbits.2.trans_le hhi
      exact Prod.ext (sign_packHalf s hlt) (mag_packHalf s hlt)
  rw [hbij, Finset.card_product, Nat.card_Ico, Finset.card_univ]
  rfl

/-! ### The categories by fields and by magnitude -/

theorem isZero_iff_fields (h : Half) : isZero h ↔ expNat h = 0 ∧ mantNat h = 0 := by
  simp [isZero]

theorem isSubnormal_iff_fields (h : Half) : isSubnormal h ↔ expNat h = 0 ∧ mantNat h ≠ 0 := by
  simp [isSubnormal]

theorem isNormal_iff_fields (h : Half) : isNormal h ↔ 1 ≤ expNat h ∧ expNat h ≤ 30 := by
  simp [isNormal]

theorem isInf_iff_fields (h : Half) : isInf h ↔ expNat h = 31 ∧ mantNat h = 0 := by
  simp [isInf]

theorem isNaN_iff_fields (h : Half) : isNaN h ↔ expNat h = 31 ∧ mantNat h ≠ 0 := by
  simp [isNaN]

theorem isSubnormal_iff_mag (h : Half) : isSubnormal h = true ↔ 1 ≤ mag h ∧ mag h < 0x400 := by
  have := mantNat_lt h
  rw [isSubnormal_iff_fields, mag_eq_fields]
  omega

theorem isNormal_iff_mag (h : Half) : isNormal h = true ↔ 0x400 ≤ mag h ∧ mag h < 0x7C00 := by
  have := mantNat_lt h
  rw [isNormal_iff_fields, mag_eq_fields]
  omega

/-- The exponent field is 0, from 1 to 30, or 31, and at either end the mantissa says which of two categories it is. -/
theorem exactly_one_category (h : Half) :
    ([isZero h, isSubnormal h, isNormal h, isInf h, isNaN h].filter id).length = 1 := by
  have hlt := expNat_lt h
  obtain he | he | he : expNat h = 0 ∨ (1 ≤ expNat h ∧ expNat h ≤ 30) ∨ expNat h = 31 := by omega
  · by_cases hm : mantNat h = 0 <;> simp [isZero, isSubnormal, isNormal, isInf, isNaN, he, hm]
  · have h0 : expNat h ≠ 0 := by omega
    have h31 : expNat h ≠ 31 := by omega
    simp [isZero, isSubnormal, isNormal, isInf, isNaN, he, h0, h31]
  · by_cases hm : mantNat h = 0 <;> simp [isZero, isSubnormal, isNormal, isInf, isNaN, he, hm]

/-! ### The counts of R22's table -/

theorem card_isZero : (Finset.univ.filter fun h : Half => isZero h).card = 2 :=
  card_filter_of_mag_range (lo := 0) (hi := 1) (by decide) fun h => by rw [isZero_iff]; omega

theorem card_isSubnormal : (Finset.univ.filter fun h : Half => isSubnormal h).card = 2046 :=
  card_filter_of_mag_range (by decide) isSubnormal_iff_mag

theorem card_isNormal : (Finset.univ.filter fun h : Half => isNormal h).card = 61440 :=
  card_filter_of_mag_range (by decide) isNormal_iff_mag

theorem card_isInf : (Finset.univ.filter fun h : Half => isInf h).card = 2 :=
  card_filter_of_mag_range (lo := 0x7C00) (hi := 0x7C01) (by decide) fun h => by rw [isInf_iff]; omega

theorem card_isNaN : (Finset.univ.filter fun h : Half => isNaN h).card = 2046 :=
  card_filter_of_mag_range (lo := 0x7C01) (hi := 0x8000) (by decide) fun h => by
    have := mag_lt h
    rw [isNaN_iff]
    omega

/-! ### The mantissa of a NaN -/

theorem mantNat_eq_quiet_payload (h : Half) : mantNat h = (quiet h).toNat * 2 ^ 9 + (payload h).toNat := by
  rw [mantNat_eq, quiet_toNat, payload_toNat]
  omega

theorem mant_eq_quiet_append_payload (h : Half) : mant h = quiet h ++ payload h := by
  rw [← BitVec.toNat_inj, BitVec.toNat_append, ← Nat.shiftLeft_add_eq_or_of_lt (payload h).isLt, Nat.shiftLeft_eq]
  exact mantNat_eq_quiet_payload h

/-- With the quiet flag and the payload both 0 the mantissa is 0, and the half is an infinity. -/
theorem payload_ne_zero_of_signaling {h : Half} (hn : isNaN h) (hq : quiet h = 0) : payload h ≠ 0 := by
  intro hp
  obtain ⟨-, hm⟩ := (isNaN_iff_fields h).mp hn
  exact hm (by rw [mantNat_eq_quiet_payload, hq, hp]; rfl)

/-- Settles O23: the categories are disjoint ranges of the exponent and mantissa fields, hence of the magnitude, and each
magnitude belongs to two halves. -/
theorem categoriesPartitionTheHalves : Obligations.CategoriesPartitionTheHalves :=
  ⟨exactly_one_category,
    fun h => ⟨isZero_iff_fields h, isSubnormal_iff_fields h, isNormal_iff_fields h, isInf_iff_fields h,
      isNaN_iff_fields h⟩,
    card_isZero, card_isSubnormal, card_isNormal, card_isInf, card_isNaN,
    fun h hn => ⟨mant_eq_quiet_append_payload h, payload_ne_zero_of_signaling hn⟩⟩

end Sys2Proof.Machine
end

section
/-! The decoder against the encoder and the reserved ranges (R37, R40, R41), the step against R45's case split, and the
operand and result forms (R38, R39). -/

namespace Sys2Proof

/-! ### The decoder and the encoder -/

@[simp] theorem cmdGrp_encode (i : Instr) : cmdGrp (encode i) = i.grp :=
  BitVec.extractLsb'_append_eq_left

@[simp] theorem cmdFn_encode (i : Instr) : cmdFn (encode i) = i.fn :=
  BitVec.extractLsb'_append_eq_right

@[simp] theorem decode_encode (i : Instr) : decode (encode i) = .op i := by
  cases i <;> rfl

/-- Each row of the decoder's table is the word of the operation it selects. -/
theorem eq_encode_of_decode {w : Cmd} {i : Instr} (h : decode w = .op i) : w = encode i := by
  unfold decode at h
  split at h <;> cases h
  all_goals exact BitVec.eq_of_toNat_eq ‹_›

theorem decode_eq_op_iff (w : Cmd) (i : Instr) : decode w = .op i ↔ w = encode i :=
  ⟨eq_encode_of_decode, fun h => h ▸ decode_encode i⟩

/-! ### The reserved ranges of R41 -/

theorem cmdGrp_toNat (w : Cmd) : (cmdGrp w).toNat = w.toNat / 16 := by
  have := w.isLt
  rw [cmdGrp, BitVec.extractLsb'_toNat, Nat.shiftRight_eq_div_pow]
  omega

theorem cmdFn_toNat (w : Cmd) : (cmdFn w).toNat = w.toNat % 16 := by
  rw [cmdFn, BitVec.extractLsb'_toNat, Nat.shiftRight_zero]

theorem cmdDefined_encode (i : Instr) : cmdDefined (encode i) = true := by
  cases i <;> rfl

/-- A word that matches no row of the table lies in one of R41's ranges. -/
theorem cmdDefined_of_reserved {w : Cmd} {r : Reserved} (h : decode w = .reserved r) : cmdDefined w = false := by
  unfold decode at h
  split at h <;> cases h
  simp only [imp_false] at * -- `omega` reads `x ≠ n`, not `x = n → False`
  simp only [cmdDefined, cmdGrp_toNat, cmdFn_toNat]
  split_ifs
  case neg => rfl
  all_goals
    rw [decide_eq_false_iff_not]
    omega

theorem cmdDefined_eq_true_iff (w : Cmd) : cmdDefined w = true ↔ ∃ i, decode w = .op i := by
  constructor
  · intro hw
    cases h : decode w with
    | op i => exact ⟨i, rfl⟩
    | reserved r => rw [cmdDefined_of_reserved h] at hw; cases hw
  · rintro ⟨i, h⟩
    rw [eq_encode_of_decode h, cmdDefined_encode]

theorem cmdDefined_eq_false_iff (w : Cmd) : cmdDefined w = false ↔ ∃ r, decode w = .reserved r := by
  rw [← Bool.not_eq_true, cmdDefined_eq_true_iff]
  cases decode w <;> simp

theorem cmdDefined_eq_false_iff_encode (w : Cmd) : cmdDefined w = false ↔ ∀ i, encode i ≠ w := by
  rw [← Bool.not_eq_true, cmdDefined_eq_true_iff, not_exists]
  exact forall_congr' fun i => by rw [decode_eq_op_iff, ne_comm]

theorem length_filter_reserved : ((List.range 256).filter fun n => !cmdDefined (BitVec.ofNat 8 n)).length = 230 := by
  decide +kernel

/-- Settles O7: the columns of the table are read off `grp`, `fn`, `operandForm` and `resultForm`, and the mask 0xFF keeps
all 8 bits. -/
theorem opcodeMapIsTheSpecsTable : Obligations.OpcodeMapIsTheSpecsTable := by
  refine ⟨fun i => ⟨cmdGrp_encode i, cmdFn_encode i, decode_encode i⟩, fun w i => ?_, rfl, rfl, rfl, rfl⟩
  have hmask : w &&& 0xFF = w := BitVec.and_allOnes
  rw [hmask, decode_eq_op_iff]

/-! ### The columns of operand and result forms -/

theorem Instr.operandForm_eq (i : Instr) :
    i.operandForm = if i = .hnarS then .S else if i = .hnarD then .D else if i.grp = 4 then .HH else .H := by
  cases i <;> rfl

theorem ResultForm.width_le (f : ResultForm) : f.width ≤ 64 := by
  cases f <;> decide

end Sys2Proof

namespace Sys2Proof.Machine

/-! ### A step writes R45's case split -/

/-- The operation's arm of `exec` is the arm of R45's case split at its word. -/
theorem exec_eq_portExec (i : Instr) (s : State) : exec i s = .next (s.respond (portExec ⟨encode i, s.a, s.b⟩)) := by
  cases i
  case hnarD =>
    have hread : operandD s.a = s.a.extractLsb' 0 64 := BitVec.extractLsb'_eq_self.symm
    rw [exec_hnarD, hread]
    rfl
  all_goals rfl

theorem portExec_of_reserved {i : Inputs} {r : Reserved} (h : decode i.cmd = .reserved r) : portExec i = ⟨0, 1⟩ := by
  unfold decode at h
  split at h <;> cases h
  simp only [portExec, *]

theorem step_eq_portExec (s : State) : step s = .next (s.respond (portExec s.inputs)) := by
  cases h : decode s.cmd with
  | op i => rw [step_of_op h, exec_eq_portExec, ← eq_encode_of_decode h, State.inputs]
  | reserved r => rw [step_of_reserved h, portExec_of_reserved h, State.respond]

theorem transact_eq_portExec (s : State) (i : Inputs) : transact s i = .next ((s.drive i).respond (portExec i)) := by
  rw [transact, step_eq_portExec, State.drive_inputs]

/-- Settles O3, by the arms of `exec` for a word of the table and by `portExec_of_reserved` for the rest. -/
theorem stepIsTheSpecsCaseSplit : Obligations.StepIsTheSpecsCaseSplit :=
  step_eq_portExec

/-- Settles O5: a word is reserved exactly when the decoder gives it no operation, and a step's answer is a function of the
inputs alone. -/
theorem reservedCommandsGiveIllAndZero : Obligations.ReservedCommandsGiveIllAndZero := by
  refine ⟨cmdDefined_eq_false_iff_encode, length_filter_reserved, fun s hs => ?reserved, fun s hs => ?defined, fun s o i => ?again⟩
  case reserved =>
    obtain ⟨r, hr⟩ := (cmdDefined_eq_false_iff _).mp hs
    exact step_of_reserved hr
  case defined =>
    obtain ⟨i, hi⟩ := (cmdDefined_eq_true_iff _).mp hs
    rw [step_of_op hi]
    exact exec_answers s i
  case again => rw [transact_eq_portExec, transact_eq_portExec, State.respond_drive_respond]

/-! ### Operand forms -/

/-- The operand values an operand form reads, each at its own width (R38). -/
def OperandValues : OperandForm → Type
  | .H => Half
  | .S => Float32Bits
  | .D => Float64Bits
  | .HH => Half × Half

/-- What an operand form reads from the ports. -/
def readOperands : (f : OperandForm) → Port64 → Half → OperandValues f
  | .H, a, _ => operandH a
  | .S, a, _ => operandS a
  | .D, a, _ => operandD a
  | .HH, a, b => (operandH a, operandB b)

theorem readOperands_congr {f : OperandForm} {a a' : Port64} {b b' : Half} (h : AgreeOn f a b a' b') :
    readOperands f a b = readOperands f a' b' := by
  cases f with
  | HH =>
    obtain ⟨ha, hb⟩ := h
    exact Prod.ext ha hb
  | H | S | D => exact h

/-- `y` is a function of the operands of the operation's form. -/
theorem exec_eq_of_readOperands (i : Instr) : ∃ result : OperandValues i.operandForm → Port64, ∀ s : State,
    exec i s = .next { s with y := result (readOperands i.operandForm s.a s.b), ill := 0 } :=
  match i with
  | .hsign => ⟨fun h => zext64 (sign h), exec_hsign⟩
  | .hexpf => ⟨fun h => zext64 (expf h), exec_hexpf⟩
  | .hmant => ⟨fun h => zext64 (mant h), exec_hmant⟩
  | .hexpu => ⟨fun h => sext64 (expu h), exec_hexpu⟩
  | .hsignif => ⟨fun h => zext64 (signif h), exec_hsignif⟩
  | .hquiet => ⟨fun h => zext64 (quiet h), exec_hquiet⟩
  | .hpayld => ⟨fun h => zext64 (payload h), exec_hpayld⟩
  | .hclass => ⟨fun h => zext64 (classCode (classOf h)), exec_hclass⟩
  | .hisnan => ⟨fun h => truth64 (isNaN h), exec_hisnan⟩
  | .hisinf => ⟨fun h => truth64 (isInf h), exec_hisinf⟩
  | .hisfin => ⟨fun h => truth64 (isFinite h), exec_hisfin⟩
  | .hisneg => ⟨fun h => truth64 (isNegative h), exec_hisneg⟩
  | .hisnorm => ⟨fun h => truth64 (isNormal h), exec_hisnorm⟩
  | .hissub => ⟨fun h => truth64 (isSubnormal h), exec_hissub⟩
  | .hwidS => ⟨fun h => zext64 (widenS h), exec_hwidS⟩
  | .hwidD => ⟨fun h => widenD h, exec_hwidD⟩
  | .hnarS => ⟨fun x => zext64 (narrowS x), exec_hnarS⟩
  | .hnarD => ⟨fun x => zext64 (narrowD x), exec_hnarD⟩
  | .heq => ⟨fun (p, q) => truth64 (ieeeEq p q), exec_heq⟩
  | .hne => ⟨fun (p, q) => truth64 (ieeeNe p q), exec_hne⟩
  | .hlt => ⟨fun (p, q) => truth64 (ieeeLt p q), exec_hlt⟩
  | .hle => ⟨fun (p, q) => truth64 (ieeeLe p q), exec_hle⟩
  | .hgt => ⟨fun (p, q) => truth64 (ieeeGt p q), exec_hgt⟩
  | .hge => ⟨fun (p, q) => truth64 (ieeeGe p q), exec_hge⟩
  | .htot => ⟨fun (p, q) => sext64 (totalCmp p q), exec_htot⟩
  | .heqv => ⟨fun (p, q) => truth64 (valueEq p q), exec_heqv⟩

/-- Settles O8: ports that agree on the bits of the form give the same operands, and `y` is a function of those. -/
theorem inputBitsOutsideTheOperandFormAreIgnored : Obligations.InputBitsOutsideTheOperandFormAreIgnored := by
  refine ⟨Instr.operandForm_eq, fun i s a b hagree => ?_⟩
  obtain ⟨result, hexec⟩ := exec_eq_of_readOperands i
  exact ⟨_, hexec s, by rw [hexec, readOperands_congr hagree]⟩

/-! ### Result forms -/

/-- The result of every operation but HEXPU and HTOT is a bit vector of its result form's width, zero-extended. -/
theorem exec_eq_zext64 {i : Instr} (hi : i.resultForm ≠ .I) (s : State) :
    ∃ v : BitVec i.resultForm.width, exec i s = .next { s with y := zext64 v, ill := 0 } := by
  cases i
  case hexpu | htot => exact absurd rfl hi
  all_goals exact ⟨_, rfl⟩

/-- An unsigned result is zero above its width. -/
theorem exec_lt_of_unsigned {i : Instr} (hi : i.resultForm ≠ .I) (s : State) :
    ∃ y : Port64, exec i s = .next { s with y := y, ill := 0 } ∧ y.toNat < 2 ^ i.resultForm.width := by
  obtain ⟨v, hv⟩ := exec_eq_zext64 hi s
  exact ⟨zext64 v, hv, zext64_lt (ResultForm.width_le _) v⟩

theorem exec_zero_or_one {i : Instr} (hi : i.resultForm = .U1) (s : State) :
    ∃ y : Port64, exec i s = .next { s with y := y, ill := 0 } ∧ (y = 0 ∨ y = 1) := by
  obtain ⟨y, hy, hlt⟩ := exec_lt_of_unsigned (i := i) (by simp [hi]) s
  rw [hi, ResultForm.width] at hlt
  exact ⟨y, hy, by bv_omega⟩

theorem expu_bounds (h : Half) : -14 ≤ expu h ∧ expu h ≤ 16 := by
  have hlt := expNat_lt h
  rw [expu, Config.halfBias]
  split <;> omega

theorem totalCmp_cases (p q : Half) : totalCmp p q = -1 ∨ totalCmp p q = 0 ∨ totalCmp p q = 1 := by
  unfold totalCmp
  split_ifs <;> simp

/-- Settles O9: an unsigned result by its form's width, HEXPU by the range of the exponent field, HTOT by its three cases. -/
theorem resultsHaveTheirForms : Obligations.ResultsHaveTheirForms := by
  refine ⟨fun s i hi => exec_zero_or_one ?truth s, fun s iw hiw => ?unsigned,
    fun s => ⟨_, exec_hexpu s, expu_bounds _⟩, fun s => ⟨_, exec_htot s, totalCmp_cases _ _⟩⟩
  case truth =>
    revert i
    decide
  case unsigned =>
    obtain ⟨hform, hwidth⟩ : iw.1.resultForm ≠ .I ∧ iw.1.resultForm.width = iw.2 := by
      revert iw
      decide
    rw [← hwidth]
    exact exec_lt_of_unsigned hform s

end Sys2Proof.Machine
end

section
/-! The bit model of a half (spec/40_bitmodel.md): the field operations of group 0 and the classification of group 1. -/

namespace Sys2Proof.Machine

/-! ### Results that a function of the half on `a` gives -/

theorem returns_of_exec {i : Instr} {w : Cmd} {y : Port64 → Half → Port64} (hw : decode w = .op i)
    (hexec : ∀ s : State, exec i s = .next { s with y := y s.a s.b, ill := 0 }) : Returns i w y :=
  fun s => ⟨hexec s, fun hs => (step_of_op (hs ▸ hw)).trans (hexec s)⟩

theorem zext64_eq_ofNat {n : Nat} (v : BitVec n) : zext64 v = BitVec.ofNat 64 v.toNat :=
  (BitVec.ofNat_toNat 64 v).symm

theorem returns_zext64 {i : Instr} {w : Cmd} {n : Nat} {field : Half → BitVec n} {reading : Port64 → Nat}
    (hw : decode w = .op i)
    (hexec : ∀ s : State, exec i s = .next { s with y := zext64 (field (operandH s.a)), ill := 0 })
    (hfield : ∀ a, (field (operandH a)).toNat = reading a) : Returns i w fun a _ => BitVec.ofNat 64 (reading a) :=
  returns_of_exec hw fun s => by rw [hexec, zext64_eq_ofNat, hfield]

theorem truth64_eq_bitOf {t : Bool} {p : Prop} [Decidable p] (h : t = true ↔ p) : truth64 t = bitOf p := by
  by_cases hp : p
  · rw [h.mpr hp, bitOf, if_pos hp, truth64_true]
  · rw [Bool.eq_false_iff.mpr (mt h.mp hp), bitOf, if_neg hp, truth64_false]

theorem returns_truth64 {i : Instr} {w : Cmd} {test : Half → Bool} {p : Port64 → Prop} [DecidablePred p]
    (hw : decode w = .op i)
    (hexec : ∀ s : State, exec i s = .next { s with y := truth64 (test (operandH s.a)), ill := 0 })
    (htest : ∀ a, test (operandH a) = true ↔ p a) : Returns i w fun a _ => bitOf (p a) :=
  returns_of_exec hw fun s => by rw [hexec, truth64_eq_bitOf (htest s.a)]

/-! ### The raw fields -/

theorem quiet_operandH (a : Port64) : (quiet (operandH a)).toNat = a.toNat / 2 ^ 9 % 2 := by
  rw [quiet_toNat, operandH_toNat]
  omega

theorem payload_operandH (a : Port64) : (payload (operandH a)).toNat = a.toNat % 2 ^ 9 := by
  rw [payload_toNat, operandH_toNat]
  omega

/-- A field of at most 64 bits is read back from the low bits of `y`. -/
theorem extractLsb'_zext64 {n : Nat} (hn : n ≤ 64) (v : BitVec n) : (zext64 v).extractLsb' 0 n = v := by
  rw [← BitVec.toNat_inj, BitVec.extractLsb'_toNat, zext64_toNat hn, Nat.shiftRight_zero, Nat.mod_eq_of_lt v.isLt]

theorem eq_sign_append_expf_append_mant (h : Half) : h = sign h ++ expf h ++ mant h := by
  have hhigh : sign h ++ expf h = h.extractLsb' 10 6 := BitVec.extractLsb'_append_extractLsb'_eq_extractLsb' rfl
  have hall : h.extractLsb' 10 6 ++ mant h = h.extractLsb' 0 16 :=
    BitVec.extractLsb'_append_extractLsb'_eq_extractLsb' rfl
  rw [hhigh, hall, BitVec.extractLsb'_eq_self]

/-- Settles O16: each field of the half on `a` is a quotient and a remainder of the number on `a`. -/
theorem rawFieldsAreShiftsAndMasks : Obligations.RawFieldsAreShiftsAndMasks :=
  ⟨returns_zext64 rfl exec_hsign sign_operandH, returns_zext64 rfl exec_hexpf expNat_operandH,
    returns_zext64 rfl exec_hmant mantNat_operandH, returns_zext64 rfl exec_hquiet quiet_operandH,
    returns_zext64 rfl exec_hpayld payload_operandH⟩

/-- Settles O17: the half is its three fields in a row, and `y` holds each field unchanged in its low bits. -/
theorem rawFieldsDetermineTheHalf : Obligations.RawFieldsDetermineTheHalf := by
  refine fun s => ⟨_, _, _, exec_hsign s, exec_hexpf s, exec_hmant s, ?_⟩
  rw [extractLsb'_zext64 (by decide), extractLsb'_zext64 (by decide), extractLsb'_zext64 (by decide)]
  exact eq_sign_append_expf_append_mant (operandH s.a)

/-! ### The unbiased exponent and the significand -/

theorem expu_operandH (a : Port64) : expu (operandH a) = if expOf a = 0 then -14 else (expOf a : Int) - 15 := by
  rw [expu, expNat_operandH, Config.halfBias]

/-- Settles O18, by R54's two lines at the exponent field of the half on `a`. -/
theorem hexpuReturnsUnbiasedExponent : Obligations.HexpuReturnsUnbiasedExponent := by
  refine ⟨returns_of_exec rfl fun s => ?lines, rfl, fun s he => ?allOnes⟩
  case lines => rw [exec_hexpu, expu_operandH, sext64]
  case allOnes => rw [exec_hexpu, expu_operandH, he]; rfl

theorem signif_toNat (h : Half) :
    (signif h).toNat = (if 1 ≤ expNat h ∧ expNat h ≤ 30 then 1024 else 0) + mantNat h := by
  rw [signif, BitVec.toNat_append, ← Nat.shiftLeft_add_eq_or_of_lt (mant h).isLt, hiddenBit, mantNat]
  split <;> rfl

theorem sext64_expu_toInt (h : Half) : (sext64 (expu h)).toInt = expu h := by
  obtain ⟨hlo, hhi⟩ := expu_bounds h
  rw [sext64, BitVec.toInt_ofInt_eq_self (by decide)] <;> omega

theorem signFactor_eq_pow (b : Bit) : signFactor b = (-1) ^ b.toNat := by
  obtain rfl | rfl := b.eq_zero_or_eq_one <;> simp [signFactor]

/-- R55's exact value: field 0 has the exponent -14 and no hidden bit, fields 1 to 30 have the hidden bit 1024. -/
theorem valH_eq_signif_mul_pow {h : Half} (hfin : expNat h ≠ 31) :
    valH h = (-1) ^ (sign h).toNat * (signif h).toNat * 2 ^ (expu h - 10) := by
  have hlt := expNat_lt h
  rw [← signFactor_eq_pow, signif_toNat, valH, expu, Config.halfBias]
  by_cases h0 : expNat h = 0
  · rw [if_pos h0, if_pos h0, if_neg (by omega), Nat.zero_add]
    norm_num
  · have hexp : (expNat h : ℤ) - 15 - 10 = expNat h - 25 := by ring
    rw [if_neg h0, if_neg h0, if_pos (by omega), hexp, Nat.cast_add, Nat.cast_ofNat]

/-- Settles O19, by `signif_toNat` and the exact value of a half in its sign, significand and exponent. -/
theorem hsignifReturnsSignificandOfTheValue : Obligations.HsignifReturnsSignificandOfTheValue := by
  refine ⟨returns_zext64 rfl exec_hsignif fun a => ?significand,
    fun s hfin => ⟨_, _, _, exec_hsign s, exec_hexpu s, exec_hsignif s, ?value⟩⟩
  case significand => rw [signif_toNat, expNat_operandH, mantNat_operandH]
  case value =>
    rw [← expNat_operandH] at hfin
    rw [zext64_toNat (by decide), zext64_toNat (by decide), sext64_expu_toInt]
    exact valH_eq_signif_mul_pow hfin

/-! ### The class of each category -/

section Category

variable {h : Half}

theorem classOf_of_nan (he : expNat h = 31) (hm : mantNat h ≠ 0) : classOf h = .nan := by
  rw [classOf, if_pos he, if_pos hm]

theorem classOf_of_inf (he : expNat h = 31) (hm : mantNat h = 0) :
    classOf h = if isNegative h then .negInf else .posInf := by
  rw [classOf, if_pos he, if_neg (not_not.mpr hm)]

theorem classOf_of_zero (he : expNat h = 0) (hm : mantNat h = 0) :
    classOf h = if isNegative h then .negZero else .posZero := by
  rw [classOf, if_neg (by omega), if_pos he, if_pos hm]

theorem classOf_of_subnormal (he : expNat h = 0) (hm : mantNat h ≠ 0) :
    classOf h = if isNegative h then .negSubnormal else .posSubnormal := by
  rw [classOf, if_neg (by omega), if_pos he, if_neg hm]

theorem classOf_of_normal (hlo : 1 ≤ expNat h) (hhi : expNat h ≤ 30) :
    classOf h = if isNegative h then .negNormal else .posNormal := by
  rw [classOf, if_neg (by omega), if_neg (by omega)]

end Category

theorem classCode_le (c : HalfClass) : (classCode c).toNat ≤ 8 := by
  cases c <;> decide

theorem isNegative_eq_decide (h : Half) : isNegative h = decide ((sign h).toNat = 1) := by
  rw [isNegative, decide_eq_decide, ← BitVec.toNat_inj]
  rfl

/-- Settles O20, by the class of each category and the sign. -/
theorem hclassReturnsTheClassCode : Obligations.HclassReturnsTheClassCode := by
  refine ⟨fun a => (classCode (classOf (operandH a))).toNat, ?returns, fun a => ?_⟩
  case returns => exact returns_zext64 (field := fun h => classCode (classOf h)) rfl exec_hclass fun _ => rfl
  simp only [← sign_operandH, ← expNat_operandH, ← mantNat_operandH]
  generalize operandH a = h
  refine ⟨fun ⟨he, hm, hs⟩ => ?posInf, fun ⟨he, hm, hs⟩ => ?negInf, fun ⟨he, hm⟩ => ?nan,
    fun ⟨he, hm, hs⟩ => ?posZero, fun ⟨he, hm, hs⟩ => ?negZero,
    fun ⟨he, hm, hs⟩ => ?posSubnormal, fun ⟨he, hm, hs⟩ => ?negSubnormal,
    fun ⟨hlo, hhi, hs⟩ => ?posNormal, fun ⟨hlo, hhi, hs⟩ => ?negNormal, classCode_le _⟩
  case nan => rw [classOf_of_nan he hm]; rfl
  case posInf | negInf => rw [classOf_of_inf he hm, isNegative_eq_decide, hs]; rfl
  case posZero | negZero => rw [classOf_of_zero he hm, isNegative_eq_decide, hs]; rfl
  case posSubnormal | negSubnormal => rw [classOf_of_subnormal he hm, isNegative_eq_decide, hs]; rfl
  case posNormal | negNormal => rw [classOf_of_normal hlo hhi, isNegative_eq_decide, hs]; rfl

/-! ### The six predicates -/

/-- `h[14:0]` of the half on `a` is its exponent field above its mantissa field. -/
theorem low15_eq_fields (a : Port64) : a.toNat % 2 ^ 15 = expOf a * 1024 + mantOf a := by
  rw [expOf, mantOf]
  omega

theorem isFinite_iff_not (h : Half) : isFinite h ↔ ¬isNaN h ∧ ¬isInf h := by
  rw [isFinite, Bool.and_eq_true, Bool.not_eq_true', Bool.not_eq_true', Bool.not_eq_true, Bool.not_eq_true]

theorem isNaN_operandH (a : Port64) : isNaN (operandH a) ↔ expOf a = 31 ∧ mantOf a ≠ 0 := by
  rw [isNaN_iff_fields, expNat_operandH, mantNat_operandH]

theorem isInf_operandH (a : Port64) : isInf (operandH a) ↔ expOf a = 31 ∧ mantOf a = 0 := by
  rw [isInf_iff_fields, expNat_operandH, mantNat_operandH]

theorem isFinite_operandH (a : Port64) :
    isFinite (operandH a) ↔ ¬(expOf a = 31 ∧ mantOf a ≠ 0) ∧ ¬(expOf a = 31 ∧ mantOf a = 0) := by
  rw [isFinite_iff_not, isNaN_operandH, isInf_operandH]

theorem isNegative_operandH (a : Port64) : isNegative (operandH a) ↔ signOf a = 1 := by
  rw [isNegative_eq_decide, sign_operandH, decide_eq_true_eq]

theorem isNormal_operandH (a : Port64) : isNormal (operandH a) ↔ 1 ≤ expOf a ∧ expOf a ≤ 30 := by
  rw [isNormal_iff_fields, expNat_operandH]

theorem isSubnormal_operandH (a : Port64) : isSubnormal (operandH a) ↔ expOf a = 0 ∧ mantOf a ≠ 0 := by
  rw [isSubnormal_iff_fields, expNat_operandH, mantNat_operandH]

theorem isZero_operandH (a : Port64) : isZero (operandH a) ↔ a.toNat % 2 ^ 15 = 0 := by
  rw [isZero_iff_fields, expNat_operandH, mantNat_operandH, low15_eq_fields]
  omega

/-- Settles O21: each predicate reads its fields, and the tests on `h[14:0]` follow from `low15_eq_fields`. -/
theorem predicatesTestTheFields : Obligations.PredicatesTestTheFields := by
  refine ⟨returns_truth64 rfl exec_hisnan isNaN_operandH, returns_truth64 rfl exec_hisinf isInf_operandH,
    returns_truth64 rfl exec_hisfin isFinite_operandH, returns_truth64 rfl exec_hisneg isNegative_operandH,
    returns_truth64 rfl exec_hisnorm isNormal_operandH, returns_truth64 rfl exec_hissub isSubnormal_operandH,
    fun a => ?_⟩
  have he : expOf a < 32 := Nat.mod_lt _ (by decide)
  have hm : mantOf a < 1024 := Nat.mod_lt _ (by decide)
  rw [low15_eq_fields]
  omega

/-! ### One row of R65's table -/

/-- What HCLASS and the six predicates return for a half, in the order of the columns of R65. -/
def classRow (h : Half) : List Port64 :=
  [zext64 (classCode (classOf h)), truth64 (isNaN h), truth64 (isInf h), truth64 (isFinite h), truth64 (isNormal h),
    truth64 (isSubnormal h), truth64 (isNegative h)]

/-- R65's table; only a NaN's row leaves the sign open. -/
def classTable (neg : Port64) : List (List Port64) :=
  [[0, 0, 1, 0, 0, 0, 0], [1, 0, 1, 0, 0, 0, 1], [2, 1, 0, 0, 0, 0, neg],
    [3, 0, 0, 1, 0, 0, 0], [4, 0, 0, 1, 0, 0, 1], [5, 0, 0, 1, 0, 1, 0], [6, 0, 0, 1, 0, 1, 1],
    [7, 0, 0, 1, 1, 0, 0], [8, 0, 0, 1, 1, 0, 1]]

/-- HISNEG returns the same bit as HSIGN (R62). -/
theorem truth64_isNegative (h : Half) : truth64 (isNegative h) = zext64 (sign h) := by
  obtain hs | hs := (sign h).eq_zero_or_eq_one <;> rw [isNegative, hs] <;> rfl

theorem fields_cases (h : Half) : (expNat h = 31 ∧ mantNat h ≠ 0) ∨ (expNat h = 31 ∧ mantNat h = 0) ∨
    (1 ≤ expNat h ∧ expNat h ≤ 30) ∨ (expNat h = 0 ∧ mantNat h ≠ 0) ∨ (expNat h = 0 ∧ mantNat h = 0) := by
  have hlt := expNat_lt h
  omega

/-- The category fixes every column but the sign, and the sign picks one of the category's two rows. -/
theorem classRow_mem_classTable (h : Half) : classRow h ∈ classTable (zext64 (sign h)) := by
  rw [← truth64_isNegative]
  simp only [classRow, classTable, isNaN, isInf, isFinite, isNormal, isSubnormal]
  obtain ⟨he, hm⟩ | ⟨he, hm⟩ | ⟨hlo, hhi⟩ | ⟨he, hm⟩ | ⟨he, hm⟩ := fields_cases h
  · simp [classOf_of_nan he hm, classCode, zext64, he, hm]
  · cases hs : isNegative h <;> simp [classOf_of_inf he hm, classCode, zext64, he, hm, hs]
  · have h0 : expNat h ≠ 0 := by omega
    have h31 : expNat h ≠ 31 := by omega
    cases hs : isNegative h <;> simp [classOf_of_normal hlo hhi, classCode, zext64, hlo, hhi, h0, h31, hs]
  · cases hs : isNegative h <;> simp [classOf_of_subnormal he hm, classCode, zext64, he, hm, hs]
  · cases hs : isNegative h <;> simp [classOf_of_zero he hm, classCode, zext64, he, hm, hs]

theorem isZero_operandH_toNat (a : Port64) :
    (isZero (operandH a)).toNat = if a.toNat % 2 ^ 15 = 0 then 1 else 0 := by
  simp only [← isZero_operandH]
  cases isZero (operandH a) <;> rfl

/-- The number of true entries, as a sum of truth values. -/
theorem length_filter_id (l : List Bool) : (l.filter id).length = (l.map Bool.toNat).sum := by
  induction l with
  | nil => rfl
  | cons b l ih => cases b <;> simp [ih, Nat.add_comm]

/-- Settles O22: the rows by `classRow_mem_classTable`, and the sum of the truth values counts the categories that hold,
which `exactly_one_category` says is one. -/
theorem classCodeAndPredicatesAgree : Obligations.ClassCodeAndPredicatesAgree := by
  refine fun s => ⟨_, _, _, _, _, _, _, exec_hclass s, exec_hisnan s, exec_hisinf s, exec_hisfin s, exec_hisnorm s,
    exec_hissub s, exec_hisneg s, ?row, ?one⟩
  case row =>
    rw [← sign_operandH, ← zext64_eq_ofNat]
    exact classRow_mem_classTable (operandH s.a)
  case one =>
    have h := exactly_one_category (operandH s.a)
    simp only [length_filter_id, List.map, List.sum_cons, List.sum_nil] at h
    simp only [truth64_toNat, ← isZero_operandH_toNat]
    omega

end Sys2Proof.Machine
end

section
/-! The widening converter (spec/41_widening.md): `widen` on each category of half, and the number that HWID.S and HWID.D
put on `y`. -/

namespace Sys2Proof.Machine

/-! ### The number of a packed wide value -/

theorem packWide_toNat (ew mw : Nat) (s : Bit) (e m : Nat) :
    (packWide ew mw s e m).toNat = (s.toNat * 2 ^ ew + e % 2 ^ ew) * 2 ^ mw + m % 2 ^ mw := by
  rw [packWide, BitVec.toNat_append, ← Nat.shiftLeft_add_eq_or_of_lt (BitVec.isLt _), Nat.shiftLeft_eq,
    BitVec.toNat_append, ← Nat.shiftLeft_add_eq_or_of_lt (BitVec.isLt _), Nat.shiftLeft_eq,
    BitVec.toNat_ofNat, BitVec.toNat_ofNat]

/-- Fields that fit their widths stand side by side, the sign at bit `ew + mw`. -/
theorem packWide_toNat_of_lt {ew mw : Nat} (s : Bit) {e m : Nat} (he : e < 2 ^ ew) (hm : m < 2 ^ mw) :
    (packWide ew mw s e m).toNat = s.toNat * 2 ^ (ew + mw) + e * 2 ^ mw + m := by
  rw [packWide_toNat, Nat.mod_eq_of_lt he, Nat.mod_eq_of_lt hm, Nat.add_mul, Nat.mul_assoc, ← Nat.pow_add]

/-- A mantissa field that ends in `k` zeros makes a wide value that does. -/
theorem dvd_packWide_toNat {ew mw k : Nat} (s : Bit) (e : Nat) {m : Nat} (hk : k ≤ mw) (hm : 2 ^ k ∣ m) :
    2 ^ k ∣ (packWide ew mw s e m).toNat := by
  have hdvd : 2 ^ k ∣ 2 ^ mw := Nat.pow_dvd_pow 2 hk
  rw [packWide_toNat]
  exact Nat.dvd_add (Nat.dvd_mul_left_of_dvd hdvd _) ((Nat.dvd_mod_iff hdvd).mpr hm)

/-! ### The four cases of `widen` -/

section Cases

variable (ew mw : Nat) {h : Half}

/-- R70. -/
theorem widen_of_allOnes (he : expNat h = 31) :
    widen ew mw h = packWide ew mw (sign h) (onesOf ew) (mantNat h <<< (mw - 10)) := by
  simp only [widen, if_pos he]

/-- R68. -/
theorem widen_of_zero (he : expNat h = 0) (hm : mantNat h = 0) : widen ew mw h = packWide ew mw (sign h) 0 0 := by
  simp [widen, he, hm]

/-- R69, before the leading 1 is located. -/
theorem widen_of_subnormal (he : expNat h = 0) (hm : mantNat h ≠ 0) :
    widen ew mw h = packWide ew mw (sign h) (-14 - (normShift (mantNat h) : Int) + biasOf ew).toNat
      ((mantNat h <<< normShift (mantNat h) - 1024) <<< (mw - 10)) := by
  simp [widen, he, hm]

/-- R71, for a target whose bias is at least the half's. -/
theorem widen_of_normal (hbias : 15 ≤ biasOf ew) (hlo : 1 ≤ expNat h) (hhi : expNat h ≤ 30) :
    widen ew mw h = packWide ew mw (sign h) (expNat h + (biasOf ew - 15)) (mantNat h <<< (mw - 10)) := by
  have hexp : ((expNat h : Int) - 15 + biasOf ew).toNat = expNat h + (biasOf ew - 15) := by omega
  simp only [widen, if_neg (show expNat h ≠ 31 by omega), if_neg (show expNat h ≠ 0 by omega), Config.halfBias, hexp]

/-- In every case the low `mw - 10` bits of the mantissa field are zero (R74 item 5). -/
theorem widen_eq_packWide_shiftLeft (h : Half) :
    ∃ e m, widen ew mw h = packWide ew mw (sign h) e (m <<< (mw - 10)) := by
  simp only [widen]
  split_ifs
  · exact ⟨_, _, rfl⟩
  · exact ⟨0, 0, by rw [Nat.zero_shiftLeft]⟩
  · exact ⟨_, _, rfl⟩
  · exact ⟨_, _, rfl⟩

theorem widen_toNat_mod (h : Half) : (widen ew mw h).toNat % 2 ^ (mw - 10) = 0 := by
  obtain ⟨e, m, hw⟩ := widen_eq_packWide_shiftLeft ew mw h
  rw [hw, Nat.shiftLeft_eq]
  exact Nat.mod_eq_zero_of_dvd (dvd_packWide_toNat _ _ (Nat.sub_le _ _) (Nat.dvd_mul_left _ _))

end Cases

/-! ### The leading 1 of a subnormal -/

section LeadingBit

variable {m j : Nat}

/-- R69's table of `k` by the highest set bit. -/
theorem normShift_eq (hlo : 2 ^ j ≤ m) (hhi : m < 2 ^ (j + 1)) : normShift m = 10 - j := by
  have hm : m ≠ 0 := by have := Nat.two_pow_pos j; omega
  rw [normShift, bitlen, (Nat.log2_eq_iff hm).mpr ⟨hlo, hhi⟩]
  omega

/-- Shifted left `10 - j` times, the highest set bit stands at bit 10. -/
theorem leading_bit_at_ten (hj : j ≤ 10) (hlo : 2 ^ j ≤ m) (hhi : m < 2 ^ (j + 1)) :
    1024 ≤ m * 2 ^ (10 - j) ∧ m * 2 ^ (10 - j) < 2048 := by
  have hpow : 2 ^ j * 2 ^ (10 - j) = 1024 := by rw [← Nat.pow_add, Nat.add_sub_cancel' hj]
  have hpow' : 2 ^ (j + 1) * 2 ^ (10 - j) = 2048 := by rw [Nat.pow_succ', Nat.mul_assoc, hpow]
  exact ⟨hpow ▸ Nat.mul_le_mul_right _ hlo, hpow' ▸ Nat.mul_lt_mul_of_pos_right hhi (Nat.two_pow_pos _)⟩

theorem highest_bit_le_nine {h : Half} (hlo : 2 ^ j ≤ mantNat h) : j ≤ 9 := by
  have hpow : 2 ^ j < 2 ^ 10 := hlo.trans_lt (mantNat_lt h)
  exact Nat.le_of_lt_succ ((Nat.pow_lt_pow_iff_right (by decide)).mp hpow)

/-- R69 by the highest set bit `j`: the true exponent is `j - 24`. -/
theorem widen_of_highest_bit (ew mw : Nat) {h : Half} (hbias : 24 ≤ biasOf ew) (he : expNat h = 0)
    (hlo : 2 ^ j ≤ mantNat h) (hhi : mantNat h < 2 ^ (j + 1)) :
    widen ew mw h = packWide ew mw (sign h) (biasOf ew - 24 + j) ((mantNat h * 2 ^ (10 - j) - 1024) <<< (mw - 10)) := by
  have hm : mantNat h ≠ 0 := by have := Nat.two_pow_pos j; omega
  have hj := highest_bit_le_nine hlo
  have hexp : (-14 - ((10 - j : Nat) : Int) + biasOf ew).toNat = biasOf ew - 24 + j := by omega
  rw [widen_of_subnormal ew mw he hm, normShift_eq hlo hhi, hexp, Nat.shiftLeft_eq _ (10 - j)]

end LeadingBit

/-! ### What HWID.S and HWID.D put on `y` -/

section Result

variable {s : State} {e m : Nat}

theorem exec_hwidS_of_widen (he : e < 2 ^ 8) (hm : m < 1024)
    (hw : widen 8 23 (operandH s.a) = packWide 8 23 (sign (operandH s.a)) e (m <<< (23 - 10))) :
    exec .hwidS s = .next { s with
      y := BitVec.ofNat 64 (signOf s.a * 2 ^ 31 + e * 2 ^ 23 + m * 2 ^ 13), ill := 0 } := by
  rw [exec_hwidS, zext64_eq_ofNat, widenS, hw, Nat.shiftLeft_eq, packWide_toNat_of_lt _ he (by omega), sign_operandH]

theorem exec_hwidD_of_widen (he : e < 2 ^ 11) (hm : m < 1024)
    (hw : widen 11 52 (operandH s.a) = packWide 11 52 (sign (operandH s.a)) e (m <<< (52 - 10))) :
    exec .hwidD s = .next { s with
      y := BitVec.ofNat 64 (signOf s.a * 2 ^ 63 + e * 2 ^ 52 + m * 2 ^ 42), ill := 0 } := by
  have hy : widenD (operandH s.a) = BitVec.ofNat 64 (widenD (operandH s.a)).toNat := by
    rw [BitVec.ofNat_toNat, BitVec.setWidth_eq]
  rw [exec_hwidD, hy, widenD, hw, Nat.shiftLeft_eq, packWide_toNat_of_lt _ he (by omega), sign_operandH]

end Result

/-- Settles O27: `widen` by the highest set bit, at the biases 127 and 1023. -/
theorem wideningOfSubnormals : Obligations.WideningOfSubnormals := by
  intro s j he hlo hhi
  rw [← expNat_operandH] at he
  rw [← mantNat_operandH] at hlo hhi ⊢
  have hj := highest_bit_le_nine hlo
  obtain ⟨hge, hlt⟩ := leading_bit_at_ten (by omega) hlo hhi
  have hfrac : mantNat (operandH s.a) * 2 ^ (10 - j) - 1024 < 1024 := by omega
  exact ⟨hge, hlt,
    exec_hwidS_of_widen (by omega) hfrac (widen_of_highest_bit 8 23 (by decide) he hlo hhi),
    exec_hwidD_of_widen (by omega) hfrac (widen_of_highest_bit 11 52 (by decide) he hlo hhi)⟩

/-- Settles O28: the mantissa field moves to the top as it is, for an infinity and for every NaN. -/
theorem wideningOfInfinitiesAndNaNs : Obligations.WideningOfInfinitiesAndNaNs := by
  intro s he
  rw [← expNat_operandH] at he
  rw [← mantNat_operandH]
  have hm := mantNat_lt (operandH s.a)
  exact ⟨exec_hwidS_of_widen (by decide) hm (widen_of_allOnes 8 23 he),
    exec_hwidD_of_widen (by decide) hm (widen_of_allOnes 11 52 he)⟩

/-- Settles O29: the biases 127 and 1023 exceed the half's by 112 and 1008. -/
theorem wideningOfNormals : Obligations.WideningOfNormals := by
  intro s hlo hhi
  rw [← expNat_operandH] at hlo hhi ⊢
  rw [← mantNat_operandH]
  have hm := mantNat_lt (operandH s.a)
  exact ⟨exec_hwidS_of_widen (by omega) hm (widen_of_normal 8 23 (by decide) hlo hhi),
    exec_hwidD_of_widen (by omega) hm (widen_of_normal 11 52 (by decide) hlo hhi)⟩

/-- Settles O25: the operations are `widen` at the two widths, whose low bits `widen_toNat_mod` shows to be zero. -/
theorem wideningReturnsTheWideFormat : Obligations.WideningReturnsTheWideFormat :=
  ⟨returns_of_exec rfl exec_hwidS, returns_of_exec rfl exec_hwidD,
    fun h => ⟨widen_toNat_mod 8 23 h, widen_toNat_mod 11 52 h⟩⟩

/-- Settles O26: the exponent and mantissa fields of the packed zero vanish and leave the sign. -/
theorem wideningOfZeros : Obligations.WideningOfZeros := by
  intro s he hm
  rw [← expNat_operandH] at he
  rw [← mantNat_operandH] at hm
  have hS := exec_hwidS_of_widen (s := s) (e := 0) (m := 0) (by decide) (by decide)
  have hD := exec_hwidD_of_widen (s := s) (e := 0) (m := 0) (by decide) (by decide)
  simp only [Nat.zero_shiftLeft, Nat.zero_mul, Nat.add_zero] at hS hD
  exact ⟨hS (widen_of_zero 8 23 he hm), hD (widen_of_zero 11 52 he hm)⟩

end Sys2Proof.Machine
end

section
/-! The narrowing converter (spec/42_narrowing.md): the value and the bits of a wide operand, the rounding of R79 against
the mathematics of R82, and the statements on HNAR.S and HNAR.D. -/

namespace Sys2Proof.Machine

/-! ### RNE of a rational (R12) -/

/-- RNE rounds down below a half, and at a half onto an even integer. -/
theorem rne_le_iff (q : ℚ) (n : ℤ) : rne q ≤ n ↔ q < n + 1 / 2 ∨ (q = n + 1 / 2 ∧ n % 2 = 0) := by
  have hlo := Int.floor_le q
  have hhi := Int.lt_floor_add_one q
  obtain hn | rfl | hn : ⌊q⌋ < n ∨ ⌊q⌋ = n ∨ n < ⌊q⌋ := lt_trichotomy _ _
  · have hn' : (⌊q⌋ : ℚ) + 1 ≤ n := by exact_mod_cast hn
    have hrne : rne q ≤ n := by
      unfold rne
      split_ifs <;> omega
    exact iff_of_true hrne (.inl (by linarith))
  · unfold rne
    split_ifs with hlt hgt heven
    · exact iff_of_true le_rfl (.inl (by linarith))
    · exact iff_of_false (by omega) (by rintro (h | ⟨h, -⟩) <;> linarith)
    · exact iff_of_true le_rfl (.inr ⟨by linarith, heven⟩)
    · exact iff_of_false (by omega) (by rintro (h | ⟨-, h⟩) <;> [linarith; exact heven h])
  · have hn' : (n : ℚ) + 1 ≤ ⌊q⌋ := by exact_mod_cast hn
    have hrne : n < rne q := by
      unfold rne
      split_ifs <;> omega
    exact iff_of_false (by omega) (by rintro (h | ⟨h, -⟩) <;> linarith)

theorem rne_eq_of_lt {q : ℚ} {n : ℤ} (hlo : n - 1 / 2 < q) (hhi : q < n + 1 / 2) : rne q = n := by
  have hle := (rne_le_iff q n).mpr (.inl hhi)
  have hge : ¬rne q ≤ n - 1 := by
    rw [rne_le_iff]
    push_cast
    rintro (h | ⟨h, -⟩) <;> linarith
  omega

/-- An even integer takes the ties on both sides. -/
theorem rne_eq_of_even {q : ℚ} {n : ℤ} (heven : n % 2 = 0) (hlo : n - 1 / 2 ≤ q) (hhi : q ≤ n + 1 / 2) :
    rne q = n := by
  have hle := (rne_le_iff q n).mpr (hhi.lt_or_eq.imp_right (⟨·, heven⟩))
  have hge : ¬rne q ≤ n - 1 := by
    rw [rne_le_iff]
    push_cast
    rintro (h | ⟨-, h⟩)
    · linarith
    · omega
  omega

/-! ### `kept + up` of R79 is RNE of the shifted significand -/

/-- R79's increment, in quotient and remainder. -/
theorem roundUp_eq {sig shift : ℕ} (hshift : 1 ≤ shift) :
    roundUp sig shift = if 2 ^ shift < 2 * (sig % 2 ^ shift) ∨
      (2 * (sig % 2 ^ shift) = 2 ^ shift ∧ sig / 2 ^ shift % 2 = 1) then 1 else 0 := by
  obtain ⟨k, rfl⟩ : ∃ k, shift = k + 1 := ⟨shift - 1, by omega⟩
  have hpow : 2 ^ (k + 1) = 2 * 2 ^ k := Nat.pow_succ'
  simp only [roundUp, Nat.one_shiftLeft, Nat.shiftRight_eq_div_pow, Nat.and_two_pow_sub_one_eq_mod, Nat.add_sub_cancel]
  refine if_congr (or_congr ?_ (and_congr_left' ?_)) rfl rfl <;> omega

theorem shiftRight_add_roundUp {sig shift : ℕ} (hshift : 1 ≤ shift) :
    ((sig >>> shift + roundUp sig shift : ℕ) : ℤ) = rne (sig / 2 ^ shift) := by
  have hpos : (0 : ℚ) < 2 ^ shift := by positivity
  have hfloor : ⌊(sig / 2 ^ shift : ℚ)⌋ = ((sig / 2 ^ shift : ℕ) : ℤ) := by
    exact_mod_cast Rat.floor_natCast_div_natCast sig (2 ^ shift)
  have hfract : Int.fract (sig / 2 ^ shift : ℚ) = (sig % 2 ^ shift : ℕ) / 2 ^ shift := by
    exact_mod_cast Int.fract_div_natCast_eq_div_natCast_mod (k := ℚ) (m := sig) (n := 2 ^ shift)
  have hlt : (sig % 2 ^ shift : ℕ) / (2 ^ shift : ℚ) < 1 / 2 ↔ 2 * (sig % 2 ^ shift) < 2 ^ shift := by
    rw [div_lt_div_iff₀ hpos two_pos, one_mul, mul_comm]
    exact_mod_cast Iff.rfl
  have hgt : 1 / 2 < (sig % 2 ^ shift : ℕ) / (2 ^ shift : ℚ) ↔ 2 ^ shift < 2 * (sig % 2 ^ shift) := by
    rw [div_lt_div_iff₀ two_pos hpos, one_mul, mul_comm]
    exact_mod_cast Iff.rfl
  rw [rne, Int.self_sub_floor, hfloor, hfract, roundUp_eq hshift, Nat.shiftRight_eq_div_pow]
  simp only [hlt, hgt]
  split_ifs <;> omega

/-! ### The magnitude bits of R82 -/

section Magbits

variable {v : ℚ}

theorem magbits_of_ge (h : 65520 ≤ v) : magbits v = 0x7C00 := if_pos h

/-- Below the smallest normal half the grid is that of the subnormals. -/
theorem magbits_of_lt_normal (h : v < 2 ^ (-14 : ℤ)) : magbits v = rne (v * 2 ^ (24 : ℤ)) := by
  have hlt : v < 65520 := h.trans (by norm_num)
  rw [magbits, if_neg hlt.not_ge, if_pos h]

theorem magbits_of_normal (h : 2 ^ (-14 : ℤ) ≤ v) (h' : v < 65520) :
    magbits v = (Int.log 2 v + 14) * 1024 + rne (v * 2 ^ (10 - Int.log 2 v)) := by
  rw [magbits, if_neg h'.not_ge, if_neg h.not_gt]

/-- Up to half the smallest subnormal; `2^-25` itself is a tie. -/
theorem magbits_eq_zero (h0 : 0 ≤ v) (h : v ≤ 2 ^ (-25 : ℤ)) : magbits v = 0 := by
  rw [magbits_of_lt_normal (h.trans_lt (by norm_num))]
  norm_num at h ⊢
  exact rne_eq_of_even rfl (by push_cast; linarith) (by push_cast; linarith)

theorem magbits_eq_one (h : 2 ^ (-25 : ℤ) < v) (h' : v < 2 ^ (-24 : ℤ)) : magbits v = 1 := by
  rw [magbits_of_lt_normal (h'.trans (by norm_num))]
  norm_num at h h' ⊢
  exact rne_eq_of_lt (by push_cast; linarith) (by push_cast; linarith)

/-- The tie between 1 and 2. -/
theorem magbits_eq_two (h : v = 3 * 2 ^ (-25 : ℤ)) : magbits v = 2 := by
  rw [magbits_of_lt_normal (h.trans_lt (by norm_num)), h]
  norm_num
  exact rne_eq_of_even rfl (by norm_num) (by norm_num)

/-- The significand of R82 has at most 11 bits before it is rounded. -/
theorem mul_zpow_log_lt (v : ℚ) : v * 2 ^ (10 - Int.log 2 v) < 2048 := by
  have hbinade : v < 2 ^ (Int.log 2 v + 1) := by simpa using Int.lt_zpow_succ_log_self one_lt_two v
  calc v * 2 ^ (10 - Int.log 2 v) < 2 ^ (Int.log 2 v + 1) * 2 ^ (10 - Int.log 2 v) := by gcongr
    _ = 2 ^ (11 : ℤ) := by rw [← zpow_add₀ two_ne_zero]; congr 1; ring
    _ = 2048 := by norm_num

/-- The largest finite half is the last below the threshold: in the top binade `v * 2^-5` stays below 2047.5. -/
theorem magbits_le_of_lt (h : v < 65520) : magbits v ≤ 0x7BFF := by
  obtain hsub | hnorm := lt_or_ge v (2 ^ (-14 : ℤ))
  · have hrne : rne (v * 2 ^ (24 : ℤ)) ≤ 1024 := by
      rw [rne_le_iff]
      left
      norm_num at hsub ⊢
      linarith
    rw [magbits_of_lt_normal hsub]
    omega
  · have hpos : 0 < v := lt_of_lt_of_le (by norm_num) hnorm
    have hlog : Int.log 2 v < 16 := (Int.lt_zpow_iff_log_lt one_lt_two hpos).mp (h.trans (by norm_num))
    rw [magbits_of_normal hnorm h]
    obtain htop | hbelow : Int.log 2 v = 15 ∨ Int.log 2 v < 15 := by omega
    · have hrne : rne (v * 2 ^ (10 - Int.log 2 v)) ≤ 2047 := by
        rw [rne_le_iff, htop]
        left
        norm_num
        linarith
      omega
    · have hrne : rne (v * 2 ^ (10 - Int.log 2 v)) ≤ 2048 := by
        have := mul_zpow_log_lt v
        rw [rne_le_iff]
        left
        push_cast
        linarith
      omega

theorem magbits_le (v : ℚ) : magbits v ≤ 0x7C00 := by
  obtain h | h := lt_or_ge v 65520
  · exact (magbits_le_of_lt h).trans (by decide)
  · exact (magbits_of_ge h).le

end Magbits

/-! ### The rounded bits of R79 are the magnitude bits of R82 -/

section RoundBits

variable {mw sig : ℕ} {e : ℤ}

/-- `2^E <= v < 2^(E+1)` (R79). -/
theorem significand_mul_zpow_bounds (hlo : 2 ^ mw ≤ sig) (hhi : sig < 2 ^ (mw + 1)) :
    (2 : ℚ) ^ e ≤ sig * 2 ^ (e - mw) ∧ (sig * 2 ^ (e - mw) : ℚ) < 2 ^ (e + 1) := by
  have hlo' : (2 : ℚ) ^ (mw : ℤ) ≤ sig := by rw [zpow_natCast]; exact_mod_cast hlo
  have hhi' : (sig : ℚ) < 2 ^ ((mw : ℤ) + 1) := by
    rw [← Nat.cast_succ, zpow_natCast]
    exact_mod_cast hhi
  constructor
  · calc (2 : ℚ) ^ e = 2 ^ (mw : ℤ) * 2 ^ (e - mw) := by rw [← zpow_add₀ two_ne_zero]; ring_nf
      _ ≤ sig * 2 ^ (e - mw) := by gcongr
  · calc (sig * 2 ^ (e - mw) : ℚ) < 2 ^ ((mw : ℤ) + 1) * 2 ^ (e - mw) := by gcongr
      _ = 2 ^ (e + 1) := by rw [← zpow_add₀ two_ne_zero]; ring_nf

/-- The significand shifted right `k + mw - e` places is the magnitude in units of `2^-k`. -/
theorem significand_div_two_pow {shift : ℕ} {k : ℤ} (h : (shift : ℤ) = mw - e - k) :
    (sig / 2 ^ shift : ℚ) = sig * 2 ^ (e - mw) * 2 ^ k := by
  rw [div_eq_mul_inv, ← zpow_natCast, ← zpow_neg, mul_assoc, ← zpow_add₀ two_ne_zero, h]
  ring_nf

theorem roundBits_of_subnormal (hmw : 10 < mw) (he : e < -14) :
    (roundBits mw e sig : ℤ) = rne (sig * 2 ^ (e - mw) * 2 ^ (24 : ℤ)) := by
  have hshift : ((roundShift mw e : ℕ) : ℤ) = mw - e - 24 := by
    rw [roundShift, if_neg he.not_ge]
    omega
  rw [roundBits, Nat.add_assoc, roundBase, if_neg he.not_ge, Nat.zero_add, shiftRight_add_roundUp (by omega),
    significand_div_two_pow hshift]

theorem roundBits_of_normal (hmw : 10 < mw) (he : -14 ≤ e) :
    (roundBits mw e sig : ℤ) = (e + 14) * 1024 + rne (sig * 2 ^ (e - mw) * 2 ^ (10 - e)) := by
  have hshift : ((roundShift mw e : ℕ) : ℤ) = mw - e - (10 - e) := by
    rw [roundShift, if_pos he]
    omega
  have hbase : ((roundBase e : ℕ) : ℤ) = (e + 14) * 1024 := by
    rw [roundBase, if_pos he, Nat.shiftLeft_eq]
    omega
  rw [roundBits, Nat.add_assoc, Nat.cast_add, hbase, shiftRight_add_roundUp (by omega), significand_div_two_pow hshift]

/-- In the top binade the carry reaches the infinity pattern: `v * 2^-5` is at least 2047.5. -/
theorem saturated_eq_infinity {v : ℚ} (hsat : 65520 ≤ v) (hlt : v < 2 ^ (e + 1)) (he : e ≤ 15) :
    (e + 14) * 1024 + rne (v * 2 ^ (10 - e)) = 0x7C00 := by
  have hgt : (2 : ℚ) ^ (15 : ℤ) < 2 ^ (e + 1) := lt_of_lt_of_le (by norm_num) (hsat.trans hlt.le)
  have hexp := (zpow_lt_zpow_iff_right₀ one_lt_two).mp hgt
  obtain rfl : e = 15 := by omega
  have hrne : rne (v * 2 ^ (10 - 15 : ℤ)) = 2048 := by
    norm_num at hlt ⊢
    exact rne_eq_of_even rfl (by push_cast; linarith) (by push_cast; linarith)
  rw [hrne]
  rfl

theorem roundBits_eq_magbits (hmw : 10 < mw) (hlo : 2 ^ mw ≤ sig) (hhi : sig < 2 ^ (mw + 1)) (he : e ≤ 15) :
    (roundBits mw e sig : ℤ) = magbits (sig * 2 ^ (e - mw)) := by
  obtain ⟨hge, hlt⟩ := significand_mul_zpow_bounds (e := e) hlo hhi
  obtain hsub | hnorm := lt_or_ge e (-14)
  · rw [roundBits_of_subnormal hmw hsub,
      magbits_of_lt_normal (hlt.trans_le (zpow_le_zpow_right₀ one_le_two (by omega)))]
  rw [roundBits_of_normal hmw hnorm]
  obtain hsat | hfin := le_or_gt 65520 (sig * 2 ^ (e - mw) : ℚ)
  · rw [magbits_of_ge hsat, saturated_eq_infinity hsat hlt he]
  · have hpos := (zpow_pos two_pos e).trans_le hge
    have hlog : Int.log 2 (sig * 2 ^ (e - mw) : ℚ) = e := by
      have hlog_ge := (Int.zpow_le_iff_le_log one_lt_two hpos).mp hge
      have hlog_lt := (Int.lt_zpow_iff_log_lt one_lt_two hpos).mp hlt
      omega
    rw [magbits_of_normal ((zpow_le_zpow_right₀ one_le_two hnorm).trans hge) hfin, hlog]

end RoundBits
/-! ### The fields and the exact value of a wide operand -/

section Wide

variable {ew mw : ℕ} {x : BitVec (1 + ew + mw)}

theorem wideMant_lt (x : BitVec (1 + ew + mw)) : wideMant x < 2 ^ mw := (x.extractLsb' 0 mw).isLt

theorem toNat_eq_wideFields (x : BitVec (1 + ew + mw)) :
    x.toNat = (wideSign x).toNat * 2 ^ (ew + mw) + wideExp x * 2 ^ mw + wideMant x := by
  have hsplit : x = packWide ew mw (wideSign x) (wideExp x) (wideMant x) := by
    rw [packWide, wideExp, wideMant, BitVec.ofNat_toNat, BitVec.setWidth_eq, BitVec.ofNat_toNat, BitVec.setWidth_eq,
      wideSign, BitVec.extractLsb'_append_extractLsb'_eq_extractLsb' (Nat.add_comm ew mw),
      BitVec.extractLsb'_append_extractLsb'_eq_extractLsb' (Nat.zero_add mw).symm, BitVec.extractLsb'_eq_self]
  conv_lhs => rw [hsplit]
  exact packWide_toNat_of_lt _ (x.extractLsb' mw ew).isLt (wideMant_lt x)

theorem biasOf_le_onesOf (ew : ℕ) : biasOf ew ≤ onesOf ew :=
  Nat.sub_le_sub_right (Nat.pow_le_pow_right two_pos (Nat.sub_le ew 1)) 1

theorem wideNaN_iff : wideNaN x ↔ wideExp x = onesOf ew ∧ wideMant x ≠ 0 := by
  simp [wideNaN]

theorem wideInf_iff : wideInf x ↔ wideExp x = onesOf ew ∧ wideMant x = 0 := by
  simp [wideInf]

theorem wideFinite_iff : wideFinite x ↔ wideExp x ≠ onesOf ew := by
  simp [wideFinite]

theorem abs_signFactor (s : Bit) : |signFactor s| = 1 := by
  obtain h | h := signFactor_eq s <;> simp [h]

theorem abs_valWide_of_exp_zero (h : wideExp x = 0) :
    |valWide x| = wideMant x * 2 ^ (1 - (biasOf ew : ℤ) - mw) := by
  rw [valWide, if_pos h, mul_assoc, abs_mul, abs_signFactor, one_mul, abs_of_nonneg (by positivity)]

theorem abs_valWide_of_exp_ne_zero (h : wideExp x ≠ 0) :
    |valWide x| = (2 ^ mw + wideMant x : ℕ) * 2 ^ ((wideExp x : ℤ) - biasOf ew - mw) := by
  rw [valWide, if_neg h, mul_assoc, abs_mul, abs_signFactor, one_mul, abs_of_nonneg (by positivity)]
  push_cast
  rfl

/-- A subnormal lies below the smallest normal. -/
theorem abs_valWide_lt_of_exp_zero (h : wideExp x = 0) : |valWide x| < 2 ^ (1 - (biasOf ew : ℤ)) := by
  have hm : (wideMant x : ℚ) < 2 ^ (mw : ℤ) := by rw [zpow_natCast]; exact_mod_cast wideMant_lt x
  rw [abs_valWide_of_exp_zero h]
  calc (wideMant x : ℚ) * 2 ^ (1 - (biasOf ew : ℤ) - mw)
      < 2 ^ (mw : ℤ) * 2 ^ (1 - (biasOf ew : ℤ) - mw) := by gcongr
    _ = 2 ^ (1 - (biasOf ew : ℤ)) := by rw [← zpow_add₀ two_ne_zero]; congr 1; ring

theorem wideSign_eq_zero_of_valWide_pos (h : 0 < valWide x) : wideSign x = 0 := by
  refine (wideSign x).eq_zero_or_eq_one.resolve_right fun hs => h.not_ge ?_
  have hfactor : signFactor (wideSign x) = -1 := if_pos hs
  rw [valWide, hfactor]
  split_ifs <;> rw [mul_assoc, neg_one_mul, neg_nonpos] <;> positivity

theorem significand_bounds (x : BitVec (1 + ew + mw)) :
    2 ^ mw ≤ 2 ^ mw + wideMant x ∧ 2 ^ mw + wideMant x < 2 ^ (mw + 1) := by
  have := wideMant_lt x
  rw [Nat.pow_succ]
  omega

theorem abs_valWide_bounds (h : wideExp x ≠ 0) :
    (2 : ℚ) ^ ((wideExp x : ℤ) - biasOf ew) ≤ |valWide x| ∧
      |valWide x| < 2 ^ ((wideExp x : ℤ) - biasOf ew + 1) := by
  obtain ⟨hlo, hhi⟩ := significand_bounds x
  rw [abs_valWide_of_exp_ne_zero h]
  exact significand_mul_zpow_bounds hlo hhi

/-! ### `narrow` on each category of source -/

/-- R76. -/
theorem toNat_narrowWith_of_nan (hmw : 10 ≤ mw) (fill : BitVec 10) (h : wideNaN x) :
    (narrowWith fill ew mw x).toNat = (wideSign x).toNat * 2 ^ 15 + 31 * 2 ^ 10 +
      (if wideMant x / 2 ^ (mw - 10) = 0 then fill.toNat else wideMant x / 2 ^ (mw - 10)) := by
  obtain ⟨he, hm⟩ := wideNaN_iff.mp h
  have ht : wideMant x / 2 ^ (mw - 10) < 2 ^ 10 := by
    rw [Nat.div_lt_iff_lt_mul (Nat.two_pow_pos _), ← Nat.pow_add, Nat.add_sub_cancel' hmw]
    exact wideMant_lt x
  rw [narrowWith_nan fill x he hm, narrowNaNWith, Nat.shiftRight_eq_div_pow, BitVec.toNat_append,
    ← Nat.shiftLeft_add_eq_or_of_lt (BitVec.isLt _), BitVec.toNat_append,
    ← Nat.shiftLeft_add_eq_or_of_lt (BitVec.isLt _), apply_ite BitVec.toNat, BitVec.toNat_ofNat, Nat.mod_eq_of_lt ht,
    Nat.shiftLeft_eq, Nat.shiftLeft_eq, Nat.add_mul, Nat.mul_assoc]
  rfl

/-- R77. -/
theorem toNat_narrowWith_of_inf (fill : BitVec 10) (h : wideInf x) :
    (narrowWith fill ew mw x).toNat = (wideSign x).toNat * 2 ^ 15 + 0x7C00 := by
  obtain ⟨he, hm⟩ := wideInf_iff.mp h
  rw [narrowWith_inf fill x he hm, infHalf_toNat]

/-- R78. -/
theorem toNat_narrowWith_of_exp_zero (hbias : 1 ≤ biasOf ew) (fill : BitVec 10) (h : wideExp x = 0) :
    (narrowWith fill ew mw x).toNat = (wideSign x).toNat * 2 ^ 15 := by
  have := biasOf_le_onesOf ew
  rw [narrowWith_zero fill x (by omega) h, zeroHalf_toNat]

/-- R82 for a finite source: the sign, and the magnitude bits of the exact magnitude. -/
theorem narrowWith_eq_packHalf_magbits (hmw : 10 < mw) (hbias : 26 ≤ biasOf ew) (fill : BitVec 10) (h : wideFinite x) :
    ∃ bits : ℕ, narrowWith fill ew mw x = packHalf (wideSign x) bits ∧ (bits : ℤ) = magbits |valWide x| := by
  have he := wideFinite_iff.mp h
  by_cases h0 : wideExp x = 0
  · have hv : |valWide x| ≤ 2 ^ (-25 : ℤ) :=
      (abs_valWide_lt_of_exp_zero h0).le.trans (zpow_le_zpow_right₀ one_le_two (by omega))
    exact ⟨0, narrowWith_zero fill x he h0, (magbits_eq_zero (abs_nonneg _) hv).symm⟩
  · obtain ⟨hge, hlt⟩ := abs_valWide_bounds h0
    rw [narrowWith_normal fill x he h0]
    obtain hover | hle := lt_or_ge 15 ((wideExp x : ℤ) - biasOf ew)
    · have hv : (2 : ℚ) ^ (16 : ℤ) ≤ |valWide x| := (zpow_le_zpow_right₀ one_le_two hover).trans hge
      exact ⟨0x7C00, roundPack_overflow _ _ hover, (magbits_of_ge (le_trans (by norm_num) hv)).symm⟩
    obtain hunder | hin := lt_or_ge ((wideExp x : ℤ) - biasOf ew) (-25)
    · have hv : |valWide x| ≤ 2 ^ (-25 : ℤ) := hlt.le.trans (zpow_le_zpow_right₀ one_le_two (by omega))
      exact ⟨0, roundPack_underflow _ _ hunder, (magbits_eq_zero (abs_nonneg _) hv).symm⟩
    · obtain ⟨hlo, hhi⟩ := significand_bounds x
      rw [abs_valWide_of_exp_ne_zero h0]
      exact ⟨_, roundPack_inRange _ _ hin hle, roundBits_eq_magbits hmw hlo hhi hle⟩

theorem sign_narrowWith_of_finite (hmw : 10 < mw) (hbias : 26 ≤ biasOf ew) (fill : BitVec 10) (h : wideFinite x) :
    sign (narrowWith fill ew mw x) = wideSign x := by
  obtain ⟨bits, hr, hbits⟩ := narrowWith_eq_packHalf_magbits hmw hbias fill h
  have := magbits_le |valWide x|
  rw [hr, sign_packHalf _ (by omega)]

theorem mag_narrowWith_of_finite (hmw : 10 < mw) (hbias : 26 ≤ biasOf ew) (fill : BitVec 10) (h : wideFinite x) :
    (mag (narrowWith fill ew mw x) : ℤ) = magbits |valWide x| := by
  obtain ⟨bits, hr, hbits⟩ := narrowWith_eq_packHalf_magbits hmw hbias fill h
  have := magbits_le |valWide x|
  rw [hr, mag_packHalf _ (by omega), hbits]

end Wide

/-- What holds of `narrow` at all widths with more than half's mantissa and range of exponents holds of HNAR.S
and HNAR.D. -/
theorem narrows_of_narrowWith {P : (ew mw : ℕ) → BitVec (1 + ew + mw) → Half → Prop}
    (h : ∀ ew mw x, 10 < mw → 26 ≤ biasOf ew → P ew mw x (narrowWith Config.nanFill ew mw x)) : Narrows P :=
  ⟨fun s => ⟨_, exec_hnarS s, h 8 23 _ (by decide) (by decide)⟩,
    fun s => ⟨_, exec_hnarD s, h 11 52 _ (by decide) (by decide)⟩⟩

/-- Settles O38: the lines of R80's table are values of `magbits`; the threshold patterns are evaluated. -/
theorem underflowIsRoundToNearestEven : Obligations.UnderflowIsRoundToNearestEven := by
  refine ⟨narrows_of_narrowWith fun ew mw x hmw hbias hfin => ?table, by decide +kernel⟩
  have hmag := mag_narrowWith_of_finite hmw hbias Config.nanFill hfin
  refine ⟨sign_narrowWith_of_finite hmw hbias _ hfin,
    fun hv => ?below, fun hv => ?tie, fun hv hv' => ?above, fun hv => ?tieAtTwo⟩
  case below | tie => exact_mod_cast hmag.trans (magbits_eq_zero (abs_nonneg _) hv.le)
  case above => exact_mod_cast hmag.trans (magbits_eq_one hv hv')
  case tieAtTwo => exact_mod_cast hmag.trans (magbits_eq_two hv)

/-- Settles O39: `magbits` from the threshold up and below it; the threshold patterns are evaluated. -/
theorem overflowSaturatesFrom65520 : Obligations.OverflowSaturatesFrom65520 := by
  refine ⟨narrows_of_narrowWith fun ew mw x hmw hbias hfin => ?magnitudes, by decide⟩
  have hmag := mag_narrowWith_of_finite hmw hbias Config.nanFill hfin
  refine ⟨sign_narrowWith_of_finite hmw hbias _ hfin, fun hv => ?saturates, fun hv => ?staysFinite⟩
  case saturates => exact_mod_cast hmag.trans (magbits_of_ge hv)
  case staysFinite => exact_mod_cast hmag.trans_le (magbits_le_of_lt hv)

/-- Settles O34, by the NaN branch of `narrow` with the spec's filling mantissa. -/
theorem narrowingOfNaNs : Obligations.NarrowingOfNaNs :=
  narrows_of_narrowWith fun _ _ _ hmw _ hnan => toNat_narrowWith_of_nan hmw.le Config.nanFill hnan

/-- Settles O36, by the infinity branch and the zero branch of `narrow`. -/
theorem narrowingOfInfinitiesZerosAndSubnormals : Obligations.NarrowingOfInfinitiesZerosAndSubnormals :=
  narrows_of_narrowWith fun _ _ _ _ hbias =>
    ⟨toNat_narrowWith_of_inf Config.nanFill, toNat_narrowWith_of_exp_zero (by omega) Config.nanFill⟩

/-- Settles O33: the operations are `narrow` at the two widths. -/
theorem narrowingReturnsAHalf : Obligations.NarrowingReturnsAHalf :=
  ⟨returns_of_exec rfl exec_hnarS, returns_of_exec rfl exec_hnarD⟩

/-! ### R86's example -/

theorem wideExp_eq_of_valWide_near_one {g : BitVec (1 + 8 + 23)} (hlo : 1 ≤ valWide g) (hhi : valWide g < 2) :
    wideExp g = 127 := by
  have habs : |valWide g| = valWide g := abs_of_pos (by linarith)
  have hbias : biasOf 8 = 127 := rfl
  by_cases h0 : wideExp g = 0
  · have hsub := abs_valWide_lt_of_exp_zero h0
    rw [habs, hbias] at hsub
    norm_num at hsub
    linarith
  · obtain ⟨hge, hlt⟩ := abs_valWide_bounds h0
    rw [habs, hbias] at hge hlt
    have hlt1 := (zpow_lt_zpow_iff_right₀ one_lt_two).mp (hge.trans_lt (hhi.trans_eq (zpow_one 2).symm))
    have hgt0 := (zpow_lt_zpow_iff_right₀ one_lt_two).mp (((zpow_zero 2).trans_le hlo).trans_lt hlt)
    omega

/-- Float32 values from 1 to 2 are `2^-23` apart, so R86's midpoint is the only one in reach of its float64. -/
theorem eq_of_valWide_near_midpoint {g : BitVec (1 + 8 + 23)} (hlo : 1 + 2 ^ (-11 : ℤ) ≤ valWide g)
    (hhi : valWide g ≤ 1 + 2 ^ (-11 : ℤ) + 2 ^ (-39 : ℤ)) : g = 0x3F801000 := by
  norm_num at hlo hhi
  have hpos : 0 < valWide g := by linarith
  have hexp : wideExp g = 127 := wideExp_eq_of_valWide_near_one (by linarith) (by linarith)
  have hval : valWide g = (2 ^ 23 + wideMant g : ℕ) * 2 ^ (-23 : ℤ) := by
    rw [← abs_of_pos hpos, abs_valWide_of_exp_ne_zero (by omega), hexp]
    rfl
  have hmant : wideMant g = 4096 := by
    norm_num at hval
    have hge : ((4096 : ℕ) : ℚ) ≤ wideMant g := by push_cast; linarith
    have hlt : (wideMant g : ℚ) < (4097 : ℕ) := by push_cast; linarith
    rw [Nat.cast_le] at hge
    rw [Nat.cast_lt] at hlt
    omega
  rw [← BitVec.toNat_inj, toNat_eq_wideFields, wideSign_eq_zero_of_valWide_pos hpos, hexp, hmant]
  rfl

/-- Settles O45: both operands are evaluated, and a float32 as near to the float64 as the midpoint, `2^-40` away, is the
midpoint. -/
theorem doubleRoundingExampleDiffers : Obligations.DoubleRoundingExampleDiffers := by
  have hD : valWide (ew := 11) (mw := 52) 0x3FF0020000001000 = 1 + 2 ^ (-11 : ℤ) + 2 ^ (-40 : ℤ) := by decide +kernel
  have hS : valWide (ew := 8) (mw := 23) 0x3F801000 = 1 + 2 ^ (-11 : ℤ) := by decide +kernel
  refine ⟨fun s => ⟨?hnarD, ?hnarS⟩, hD, hS, by decide +kernel, fun g _ hg => ?nearest⟩
  case hnarD =>
    have hr : narrowD (operandD 0x3FF0020000001000) = 0x3C01 := by decide
    rw [exec_hnarD, hr]
    rfl
  case hnarS =>
    have hr : narrowS (operandS 0x3F801000) = 0x3C00 := by decide
    rw [exec_hnarS, hr]
    rfl
  case nearest =>
    rw [hD, hS]
    by_contra! hnear
    norm_num [abs_le] at hnear
    exact hg (eq_of_valWide_near_midpoint (by norm_num; linarith) (by norm_num; linarith))

end Sys2Proof.Machine
end

section
/-! The comparator (spec/43_comparator.md R87 to R99): the keys against the exact values, the six operators and
value-equality by keys, and the total order. -/

namespace Sys2Proof.Machine

/-! ### The keys of R87 -/

theorem isNaN_eq_false_iff (h : Half) : isNaN h = false ↔ magOf h ≤ 0x7C00 := by
  rw [← Bool.not_eq_true, isNaN_iff, mag_eq, not_lt]

theorem isNaN_eq_true_iff (h : Half) : isNaN h = true ↔ 0x7C00 < magOf h := by
  rw [isNaN_iff, mag_eq]

theorem magOf_eq_zero_iff (h : Half) : magOf h = 0 ↔ h = 0x0000 ∨ h = 0x8000 := by
  rw [magOf]
  bv_omega

theorem keyOf_bounds {h : Half} (hn : isNaN h = false) : keyOf h ∈ Set.Icc (-0x7C00) 0x7C00 := by
  rw [isNaN_eq_false_iff] at hn
  rw [keyOf]
  split <;> constructor <;> omega

theorem totalKeyOf_bounds {h : Half} (hn : isNaN h = false) : -0x7C01 ≤ totalKeyOf h ∧ totalKeyOf h ≤ 0x7C00 := by
  rw [isNaN_eq_false_iff] at hn
  rw [totalKeyOf]
  split <;> omega

/-- The value key keeps every pattern apart but the two zeros. -/
theorem keyOf_eq_iff (p q : Half) : keyOf p = keyOf q ↔ p = q ∨ (magOf p = 0 ∧ magOf q = 0) := by
  simp only [keyOf, magOf]
  bv_omega

/-- The total key keeps every pattern apart. -/
theorem totalKeyOf_eq_iff (p q : Half) : totalKeyOf p = totalKeyOf q ↔ p = q := by
  simp only [totalKeyOf, magOf]
  bv_omega

/-- The total key splits the two zeros and otherwise orders as the value key. -/
theorem totalKeyOf_lt_iff (p q : Half) :
    totalKeyOf p < totalKeyOf q ↔ keyOf p < keyOf q ∨ (p = 0x8000 ∧ q = 0x0000) := by
  simp only [totalKeyOf, keyOf, magOf]
  bv_omega

/-! ### The value key and the exact value

In units of `2^-24` every finite value is an integer, and R87's derivation reads: the largest significand at one exponent
field, 2047 (1023 at field 0), is below the smallest, 1024, at the next. -/

/-- The value with magnitude bits `m`, in units of `2^-24` (R19). -/
def scaledMag (m : ℕ) : ℕ := if m / 1024 = 0 then m % 1024 else (1024 + m % 1024) * 2 ^ (m / 1024 - 1)

theorem scaledMag_lt_succ (m : ℕ) : scaledMag m < scaledMag (m + 1) := by
  by_cases hcarry : m % 1024 = 1023
  case neg =>
    have hfield : (m + 1) / 1024 = m / 1024 := by omega
    have hmant : (m + 1) % 1024 = m % 1024 + 1 := by omega
    rw [scaledMag, scaledMag, hfield, hmant]
    split
    · omega
    · gcongr
      omega
  case pos =>
    have hfield : (m + 1) / 1024 = m / 1024 + 1 := by omega
    have hmant : (m + 1) % 1024 = 0 := by omega
    rw [scaledMag, scaledMag, hfield, hmant, hcarry, if_neg (Nat.succ_ne_zero _), Nat.add_sub_cancel]
    split
    case isTrue h0 => rw [h0]; decide
    case isFalse h0 =>
      rw [← Nat.two_pow_pred_mul_two (Nat.pos_of_ne_zero h0)]
      have := Nat.two_pow_pos (m / 1024 - 1)
      omega

/-- The exact value with value key `k`, in units of `2^-24`. -/
def scaledKey (k : ℤ) : ℤ := k.sign * scaledMag k.natAbs

theorem scaledKey_natCast (m : ℕ) : scaledKey m = scaledMag m := by
  obtain rfl | hm := Nat.eq_zero_or_pos m
  · rfl
  · rw [scaledKey, Int.sign_eq_one_of_pos (by omega), one_mul, Int.natAbs_natCast]

theorem scaledKey_neg (k : ℤ) : scaledKey (-k) = -scaledKey k := by
  rw [scaledKey, scaledKey, Int.sign_neg, Int.natAbs_neg, neg_mul]

theorem strictMono_scaledKey : StrictMono scaledKey := by
  refine strictMono_of_odd_strictMonoOn_nonneg scaledKey_neg fun j hj k hk hlt => ?_
  lift j to ℕ using hj
  lift k to ℕ using hk
  rw [scaledKey_natCast, scaledKey_natCast]
  exact_mod_cast strictMono_nat_of_lt_succ scaledMag_lt_succ (Nat.cast_lt.mp hlt)

theorem abs_valH_eq_scaledMag (h : Half) : |valH h| = scaledMag (mag h) * 2 ^ (-24 : ℤ) := by
  have hlt := mantNat_lt h
  have hfield : mag h / 1024 = expNat h := by rw [mag_eq_fields]; omega
  have hmant : mag h % 1024 = mantNat h := by rw [mag_eq_fields]; omega
  rw [abs_valH, scaledMag, hfield, hmant]
  split
  case isTrue => rfl
  case isFalse h0 =>
    have hexp : (expNat h : ℤ) - 25 = (expNat h - 1 : ℕ) + -24 := by omega
    rw [hexp, zpow_add₀ two_ne_zero, zpow_natCast]
    push_cast
    ring

theorem valH_eq_signFactor_mul_abs (h : Half) : valH h = signFactor (sign h) * |valH h| := by
  rw [abs_valH, valH]
  split <;> ring

theorem valH_eq_scaledKey (h : Half) : valH h = scaledKey (vkey h) * 2 ^ (-24 : ℤ) := by
  rw [valH_eq_signFactor_mul_abs, abs_valH_eq_scaledMag, vkey, isNegative, signFactor]
  by_cases hs : sign h = 1
  · rw [if_pos hs, if_pos (decide_eq_true hs), scaledKey_neg, scaledKey_natCast]
    push_cast
    ring
  · rw [if_neg hs, if_neg (by simpa using hs), scaledKey_natCast]
    push_cast
    ring

/-- The exact value with value key `k`, infinities at the ends of R87's range. -/
def extOfKey (k : ℤ) : ExtVal :=
  if k ≤ -0x7C00 then ⊥ else if 0x7C00 ≤ k then ⊤ else ((scaledKey k * 2 ^ (-24 : ℤ) : ℚ) : WithTop ℚ)

theorem strictMonoOn_extOfKey : StrictMonoOn extOfKey (Set.Icc (-0x7C00) 0x7C00) := by
  intro j hj k hk hlt
  obtain ⟨hjlo, -⟩ := hj
  obtain ⟨-, hkhi⟩ := hk
  have hvalue : (scaledKey j * 2 ^ (-24 : ℤ) : ℚ) < scaledKey k * 2 ^ (-24 : ℤ) := by
    gcongr
    exact strictMono_scaledKey hlt
  rw [extOfKey, extOfKey, if_neg (show ¬k ≤ -0x7C00 by omega), if_neg (show ¬0x7C00 ≤ j by omega)]
  split_ifs
  · exact bot_lt_top
  · exact WithBot.bot_lt_coe _
  · exact WithBot.coe_lt_coe.mpr (WithTop.coe_lt_top _)
  · exact WithBot.coe_lt_coe.mpr (WithTop.coe_lt_coe.mpr hvalue)

theorem extH_eq_extOfKey {h : Half} (hn : isNaN h = false) : extH h = extOfKey (vkey h) := by
  have hmag := not_lt.mp (mt (isNaN_iff h).mpr (Bool.eq_false_iff.mp hn))
  by_cases hinf : isInf h = true
  case pos =>
    rw [extH, if_pos hinf, vkey, (isInf_iff h).mp hinf]
    cases isNegative h <;> rfl
  case neg =>
    have hfin : mag h ≠ 0x7C00 := mt (isInf_iff h).mpr hinf
    obtain ⟨hlo, hhi⟩ : ¬vkey h ≤ -0x7C00 ∧ ¬0x7C00 ≤ vkey h := by
      rw [vkey]
      split <;> omega
    rw [extH, if_neg hinf, extOfKey, if_neg hlo, if_neg hhi, valH_eq_scaledKey]

theorem extH_lt_iff {p q : Half} (hp : isNaN p = false) (hq : isNaN q = false) :
    extH p < extH q ↔ keyOf p < keyOf q := by
  rw [extH_eq_extOfKey hp, extH_eq_extOfKey hq, vkey_eq_keyOf, vkey_eq_keyOf,
    strictMonoOn_extOfKey.lt_iff_lt (keyOf_bounds hp) (keyOf_bounds hq)]

theorem extH_eq_iff {p q : Half} (hp : isNaN p = false) (hq : isNaN q = false) :
    extH p = extH q ↔ keyOf p = keyOf q := by
  rw [extH_eq_extOfKey hp, extH_eq_extOfKey hq, vkey_eq_keyOf, vkey_eq_keyOf,
    strictMonoOn_extOfKey.injOn.eq_iff (keyOf_bounds hp) (keyOf_bounds hq)]

/-- Settles O46: the value key of a non-NaN half fixes its exact value by a strictly monotone function. -/
theorem valueKeyOrdersByValue : Obligations.ValueKeyOrdersByValue := by
  refine ⟨fun h => ⟨mag_eq h, isNegative_iff h, vkey_eq_keyOf h, tkey_eq_totalKeyOf h, isNaN_iff h, isZero_iff h⟩,
    fun h hn => ?ranges, rfl, rfl, rfl, rfl, fun p q hp hq => ?order⟩
  case ranges =>
    rw [vkey_eq_keyOf, tkey_eq_totalKeyOf]
    obtain ⟨hlo, hhi⟩ := keyOf_bounds hn
    exact ⟨hlo, hhi, totalKeyOf_bounds hn⟩
  case order =>
    rw [vkey_eq_keyOf, vkey_eq_keyOf]
    exact ⟨(extH_lt_iff hp hq).symm, (extH_eq_iff hp hq).symm⟩

/-! ### The six operators -/

theorem returns_truth64_of_halves {i : Instr} {w : Cmd} {test : Half → Half → Bool} {p : Port64 → Half → Prop}
    [∀ a b, Decidable (p a b)] (hw : decode w = .op i)
    (hexec : ∀ s : State, exec i s = .next { s with y := truth64 (test (operandH s.a) s.b), ill := 0 })
    (htest : ∀ a b, test (operandH a) b = true ↔ p a b) : Returns i w fun a b => bitOf (p a b) :=
  returns_of_exec hw fun s => by rw [hexec, truth64_eq_bitOf (htest s.a s.b)]

theorem not_isNaN_and_iff (p q : Half) (r : Prop) [Decidable r] :
    (!isNaN p && !isNaN q && decide r) = true ↔ magOf p ≤ 0x7C00 ∧ magOf q ≤ 0x7C00 ∧ r := by
  simp only [Bool.and_eq_true, Bool.not_eq_true', decide_eq_true_eq, isNaN_eq_false_iff, and_assoc]

theorem ieeeEq_iff (p q : Half) :
    ieeeEq p q = true ↔ magOf p ≤ 0x7C00 ∧ magOf q ≤ 0x7C00 ∧ keyOf p = keyOf q := by
  rw [ieeeEq, not_isNaN_and_iff, vkey_eq_keyOf, vkey_eq_keyOf]

theorem ieeeLt_iff (p q : Half) :
    ieeeLt p q = true ↔ magOf p ≤ 0x7C00 ∧ magOf q ≤ 0x7C00 ∧ keyOf p < keyOf q := by
  rw [ieeeLt, not_isNaN_and_iff, vkey_eq_keyOf, vkey_eq_keyOf]

theorem ieeeLe_iff (p q : Half) :
    ieeeLe p q = true ↔ magOf p ≤ 0x7C00 ∧ magOf q ≤ 0x7C00 ∧ keyOf p ≤ keyOf q := by
  rw [ieeeLe, not_isNaN_and_iff, vkey_eq_keyOf, vkey_eq_keyOf]

theorem ieeeNe_iff (p q : Half) :
    ieeeNe p q = true ↔ ¬(magOf p ≤ 0x7C00 ∧ magOf q ≤ 0x7C00 ∧ keyOf p = keyOf q) := by
  rw [ieeeNe, Bool.not_eq_true', ← Bool.not_eq_true, ieeeEq_iff]

theorem ieeeGt_iff (p q : Half) :
    ieeeGt p q = true ↔ magOf p ≤ 0x7C00 ∧ magOf q ≤ 0x7C00 ∧ keyOf p > keyOf q := by
  rw [ieeeGt, ieeeLt_iff, and_left_comm]

theorem ieeeGe_iff (p q : Half) :
    ieeeGe p q = true ↔ magOf p ≤ 0x7C00 ∧ magOf q ≤ 0x7C00 ∧ keyOf p ≥ keyOf q := by
  rw [ieeeGe, ieeeLe_iff, and_left_comm]

/-- Settles O47: `ieeeEq` by the keys, which agree on equal patterns and on the two zeros. -/
theorem heqAndHneCompareForEquality : Obligations.HeqAndHneCompareForEquality :=
  ⟨returns_truth64_of_halves rfl exec_heq fun _ => ieeeEq_iff _,
    returns_truth64_of_halves rfl exec_hne fun _ => ieeeNe_iff _,
    fun p q => by rw [ieeeEq_iff, keyOf_eq_iff]⟩

/-- Settles O48: `ieeeLt` by the keys, and `ieeeGt` is it with the operands exchanged. -/
theorem hltAndHgtCompareStrictly : Obligations.HltAndHgtCompareStrictly :=
  ⟨returns_truth64_of_halves rfl exec_hlt fun _ => ieeeLt_iff _,
    returns_truth64_of_halves rfl exec_hgt fun _ => ieeeGt_iff _, fun _ _ => rfl⟩

/-- R91: on non-NaN operands the weak comparison splits. -/
theorem ieeeLe_eq_or {p q : Half} (hp : isNaN p = false) (hq : isNaN q = false) :
    ieeeLe p q = (ieeeLt p q || ieeeEq p q) := by
  rw [isNaN_eq_false_iff] at hp hq
  rw [Bool.eq_iff_iff, Bool.or_eq_true, ieeeLe_iff, ieeeLt_iff, ieeeEq_iff]
  omega

/-- A NaN is unordered with everything, so of the operators only `!=` can be true of it (R96). -/
theorem operators_false_of_nan {p q : Half} (hnan : isNaN p = true ∨ isNaN q = true) :
    ieeeEq p q = false ∧ ieeeLt p q = false ∧ ieeeLe p q = false ∧ ieeeGt p q = false ∧ ieeeGe p q = false := by
  simp only [isNaN_eq_true_iff] at hnan
  simp only [← Bool.not_eq_true, ieeeEq_iff, ieeeLt_iff, ieeeLe_iff, ieeeGt_iff, ieeeGe_iff]
  omega

/-- Settles O49: `ieeeLe` by the keys, and `ieeeGe` is it with the operands exchanged. -/
theorem hleAndHgeCompareWeakly : Obligations.HleAndHgeCompareWeakly := by
  refine ⟨returns_truth64_of_halves rfl exec_hle fun _ => ieeeLe_iff _,
    returns_truth64_of_halves rfl exec_hge fun _ => ieeeGe_iff _, fun _ _ => rfl,
    fun _ _ => ieeeLe_eq_or, fun p q hnan => ?_⟩
  obtain ⟨-, -, hle, hgt, -⟩ := operators_false_of_nan hnan
  exact ⟨hle, hgt⟩

/-! ### The total order of R94 -/

theorem rank_of_nan {h : Half} (hn : isNaN h = true) : rank h = -0x7C02 :=
  if_pos hn

theorem rank_of_not_nan {h : Half} (hn : isNaN h = false) : rank h = totalKeyOf h := by
  rw [rank, hn, if_neg Bool.false_ne_true, tkey_eq_totalKeyOf]

theorem rank_bounds {h : Half} (hn : isNaN h = false) : -0x7C01 ≤ rank h ∧ rank h ≤ 0x7C00 :=
  rank_of_not_nan hn ▸ totalKeyOf_bounds hn

theorem rank_lt_of_nan {p q : Half} (hp : isNaN p = true) (hq : isNaN q = false) : rank p < rank q := by
  have := rank_bounds hq
  rw [rank_of_nan hp]
  omega

theorem rank_lt_iff_of_not_nan {p q : Half} (hp : isNaN p = false) (hq : isNaN q = false) :
    rank p < rank q ↔ keyOf p < keyOf q ∨ (p = 0x8000 ∧ q = 0x0000) := by
  rw [rank_of_not_nan hp, rank_of_not_nan hq, totalKeyOf_lt_iff]

/-- The NaNs are one class at the bottom, and the value key decides above it but for `-0` below `+0`. -/
theorem rank_lt_iff (p q : Half) : rank p < rank q ↔ (isNaN p = true ∧ isNaN q = false) ∨
    (isNaN p = false ∧ isNaN q = false ∧ (keyOf p < keyOf q ∨ (p = 0x8000 ∧ q = 0x0000))) := by
  cases hp : isNaN p <;> cases hq : isNaN q
  case false.false => simp [rank_lt_iff_of_not_nan hp hq]
  case false.true => simpa using (rank_lt_of_nan hq hp).le
  case true.false => simpa using rank_lt_of_nan hp hq
  case true.true => simp [rank_of_nan hp, rank_of_nan hq]

theorem rank_eq_iff (p q : Half) : rank p = rank q ↔ p = q ∨ (isNaN p = true ∧ isNaN q = true) := by
  cases hp : isNaN p <;> cases hq : isNaN q
  case false.false => simp [rank_of_not_nan hp, rank_of_not_nan hq, totalKeyOf_eq_iff]
  case false.true =>
    have hlt := rank_lt_of_nan hq hp
    simpa [hlt.ne'] using fun h : p = q => hlt.ne' (congrArg rank h)
  case true.false =>
    have hlt := rank_lt_of_nan hp hq
    simpa [hlt.ne] using fun h : p = q => hlt.ne (congrArg rank h)
  case true.true => simp [rank_of_nan hp, rank_of_nan hq]

theorem card_not_isNaN : (Finset.univ.filter fun h : Half => !isNaN h).card = 63490 :=
  card_filter_of_mag_range (lo := 0) (hi := 0x7C01) (by decide) fun h => by
    rw [Bool.not_eq_true', isNaN_eq_false_iff, mag_eq]
    omega

/-- Settles O51: below the NaNs' common rank stands none, and above it the total key decides. -/
theorem totalOrderIsRtsOrder : Obligations.TotalOrderIsRtsOrder := by
  refine ⟨fun p q => ?order, rank_eq_iff, fun h => rank_of_nan, fun h hn => ⟨rank_of_not_nan hn, rank_bounds hn⟩,
    card_not_isNaN, by decide⟩
  case order =>
    rw [rank_lt_iff]
    refine or_congr_right (and_congr_right fun hp => and_congr_right fun hq => ?_)
    rw [extH_lt_iff hp hq]

/-! ### HTOT (R95, R96) -/

theorem totalCmp_eq_sign (p q : Half) : totalCmp p q = (rank p - rank q).sign := by
  rw [totalCmp]
  split_ifs with hlt heq
  · rw [Int.sign_eq_neg_one_of_neg (by omega)]
  · rw [heq, sub_self, Int.sign_zero]
  · rw [Int.sign_eq_one_of_pos (by omega)]

theorem totalCmp_eq_neg_one_iff (p q : Half) : totalCmp p q = -1 ↔ rank p < rank q := by
  rw [totalCmp_eq_sign, Int.sign_eq_neg_one_iff_neg, sub_neg]

theorem totalCmp_eq_one_iff (p q : Half) : totalCmp p q = 1 ↔ rank q < rank p := by
  rw [totalCmp_eq_sign, Int.sign_eq_one_iff_pos, sub_pos]

theorem totalCmp_eq_zero_iff (p q : Half) : totalCmp p q = 0 ↔ p = q ∨ (isNaN p = true ∧ isNaN q = true) := by
  rw [totalCmp_eq_sign, Int.sign_eq_zero_iff_zero, sub_eq_zero, rank_eq_iff]

theorem totalCmp_le_zero_iff (p q : Half) : totalCmp p q ≤ 0 ↔ rank p ≤ rank q := by
  rw [totalCmp_eq_sign, Int.sign_nonpos_iff, sub_nonpos]

theorem totalCmp_swap (p q : Half) : totalCmp q p = -totalCmp p q := by
  rw [totalCmp_eq_sign, totalCmp_eq_sign, ← Int.sign_neg, neg_sub]

/-- R95 spelled out by cases, in its order. -/
theorem totalCmp_eq_cases (p q : Half) : totalCmp p q =
    if 0x7C00 < magOf p ∧ 0x7C00 < magOf q then 0
    else if 0x7C00 < magOf p then -1
    else if 0x7C00 < magOf q then 1
    else if totalKeyOf p < totalKeyOf q then -1
    else if totalKeyOf p = totalKeyOf q then 0 else 1 := by
  simp only [← isNaN_eq_true_iff]
  cases hp : isNaN p <;> cases hq : isNaN q
  case false.false => simp [totalCmp, rank_of_not_nan hp, rank_of_not_nan hq]
  case false.true => simpa [totalCmp_eq_one_iff] using rank_lt_of_nan hq hp
  case true.false => simpa [totalCmp_eq_neg_one_iff] using rank_lt_of_nan hp hq
  case true.true => simp [totalCmp, rank_of_nan hp, rank_of_nan hq]

/-- Settles O52: the result is the sign of the difference of the ranks. -/
theorem htotReturnsTheThreeWayResult : Obligations.HtotReturnsTheThreeWayResult := by
  refine ⟨returns_of_exec rfl fun s => ?cases, fun _ _ => rfl, totalCmp_eq_zero_iff, rfl, totalCmp_swap,
    fun p q r => ?trans⟩
  case cases =>
    rw [exec_htot, totalCmp_eq_cases]
    simp only [apply_ite sext64]
    rfl
  case trans =>
    simp only [totalCmp_le_zero_iff]
    exact le_trans

/-- Patterns that are `==` and not one in the total order are the two zeros. -/
theorem totalCmp_ne_zero_and_ieeeEq_iff (p q : Half) : (totalCmp p q ≠ 0 ∧ ieeeEq p q = true) ↔
    ((p = 0x8000 ∧ q = 0x0000) ∨ (p = 0x0000 ∧ q = 0x8000)) := by
  constructor
  · rintro ⟨hcmp, heq⟩
    obtain ⟨hne, -⟩ := not_or.mp (mt (totalCmp_eq_zero_iff p q).mpr hcmp)
    obtain ⟨-, -, hkey⟩ := (ieeeEq_iff p q).mp heq
    rw [keyOf_eq_iff, magOf_eq_zero_iff, magOf_eq_zero_iff] at hkey
    obtain ⟨rfl | rfl, rfl | rfl⟩ := hkey.resolve_left hne <;> simp at hne ⊢
  · rintro (⟨rfl, rfl⟩ | ⟨rfl, rfl⟩) <;> decide

/-- Settles O53: the rank orders as the value key but for the pair `-0`, `+0`, which is `<=` too. -/
theorem totalOrderAgreesWithTheOperators : Obligations.TotalOrderAgreesWithTheOperators := by
  refine ⟨fun p q hp hq => ⟨?ofLt, ?toLe, totalCmp_ne_zero_and_ieeeEq_iff p q⟩, fun p q hnan => ?nan⟩
  case ofLt =>
    rw [ieeeLt_iff, totalCmp_eq_neg_one_iff, rank_lt_iff_of_not_nan hp hq]
    exact fun ⟨_, _, hkey⟩ => .inl hkey
  case toLe =>
    rw [totalCmp_eq_neg_one_iff, rank_lt_iff_of_not_nan hp hq]
    rintro (hkey | ⟨rfl, rfl⟩)
    · exact (ieeeLe_iff p q).mpr ⟨(isNaN_eq_false_iff p).mp hp, (isNaN_eq_false_iff q).mp hq, hkey.le⟩
    · rfl
  case nan =>
    obtain ⟨heq, hlt, hle, hgt, hge⟩ := operators_false_of_nan hnan
    exact ⟨heq, hlt, hle, hgt, hge, totalCmp_cases p q⟩

/-! ### Value-equality (R98) -/

/-- A number for each class of value-equality: one above every key for the NaNs, else the value key. -/
def valueClass (h : Half) : ℤ := if 0x7C00 < magOf h then 0x7C01 else keyOf h

theorem valueEq_iff (p q : Half) : valueEq p q = true ↔ (0x7C00 < magOf p ∧ 0x7C00 < magOf q) ∨
    (magOf p ≤ 0x7C00 ∧ magOf q ≤ 0x7C00 ∧ keyOf p = keyOf q) := by
  rw [valueEq, Bool.or_eq_true, Bool.and_eq_true, isNaN_eq_true_iff, isNaN_eq_true_iff, ieeeEq_iff]

theorem valueEq_iff_valueClass (p q : Half) : valueEq p q = true ↔ valueClass p = valueClass q := by
  rw [valueEq_iff, valueClass, valueClass, keyOf, keyOf]
  omega

theorem valueEq_iff_patterns (p q : Half) : valueEq p q = true ↔
    p = q ∨ (isNaN p = true ∧ isNaN q = true) ∨ (isZero p = true ∧ isZero q = true) := by
  simp only [valueEq_iff, keyOf_eq_iff, isNaN_eq_true_iff, isZero_iff, mag_eq]
  constructor
  · rintro (hnan | ⟨-, -, rfl | hzero⟩)
    · exact .inr (.inl hnan)
    · exact .inl rfl
    · exact .inr (.inr hzero)
  · rintro (rfl | hnan | ⟨hp, hq⟩)
    · exact (lt_or_ge 0x7C00 (magOf p)).imp (fun h => ⟨h, h⟩) fun h => ⟨h, h, .inl rfl⟩
    · exact .inl hnan
    · exact .inr ⟨by omega, by omega, .inr ⟨hp, hq⟩⟩

theorem card_not_isNaN_not_isZero : (Finset.univ.filter fun h : Half => !isNaN h && !isZero h).card = 63488 :=
  card_filter_of_mag_range (lo := 1) (hi := 0x7C01) (by decide) fun h => by
    rw [Bool.and_eq_true, Bool.not_eq_true', isNaN_eq_false_iff, Bool.not_eq_true', ← Bool.not_eq_true, isZero_iff, mag_eq]
    omega

/-- Settles O54: value-equality is equality of `valueClass`. -/
theorem heqvIsValueEquality : Obligations.HeqvIsValueEquality := by
  refine ⟨returns_truth64_of_halves rfl exec_heqv fun _ => valueEq_iff _, ?equivalence, valueEq_iff_patterns,
    card_not_isNaN_not_isZero, card_isNaN, rfl, by decide⟩
  case equivalence =>
    simp only [valueEq_iff_valueClass]
    exact eq_equivalence.comap valueClass

/-! ### The summary table of R99 -/

/-- The eight results for a pair, in the order of R99's columns. -/
def comparatorRow (p q : Half) : List Port64 :=
  [truth64 (ieeeEq p q), truth64 (ieeeNe p q), truth64 (ieeeLt p q), truth64 (ieeeLe p q), truth64 (ieeeGt p q),
    truth64 (ieeeGe p q), sext64 (totalCmp p q), truth64 (valueEq p q)]

theorem exec_comparatorRow (s : State) :
    ∀ c ∈ [Instr.heq, .hne, .hlt, .hle, .hgt, .hge, .htot, .heqv].zip (comparatorRow (operandH s.a) s.b),
      exec c.1 s = .next { s with y := c.2, ill := 0 } := by
  simp [comparatorRow, exec_heq, exec_hne, exec_hlt, exec_hle, exec_hgt, exec_hge, exec_htot, exec_heqv]

theorem exec_of_comparatorRow {p q : Half} {results : List Int}
    (hrow : comparatorRow p q = results.map (BitVec.ofInt 64)) {s : State} (hp : operandH s.a = p) (hq : s.b = q) :
    ∀ c ∈ [Instr.heq, .hne, .hlt, .hle, .hgt, .hge, .htot, .heqv].zip results,
      exec c.1 s = .next { s with y := BitVec.ofInt 64 c.2, ill := 0 } := by
  subst hp hq
  have h := exec_comparatorRow s
  rw [hrow, List.zip_map_right] at h
  exact fun c hc => h _ (List.mem_map_of_mem hc)

/-- Settles O55: each row of the table is evaluated on its pair. -/
theorem comparatorSummaryTable : Obligations.ComparatorSummaryTable := by
  intro row hrow s hp hq
  refine exec_of_comparatorRow ?_ hp hq
  clear hp hq
  revert row
  decide

end Sys2Proof.Machine
end

section
/-! The host's side of the block: the outputs settle at every step (R26, R109), a sequence of transactions answers each by its
own inputs (R27, R36), a delay line only delays (R113), and a written transaction reaches its operation and is read back (R43). -/

namespace Sys2Proof

/-! ### The written form of a transaction -/

theorem Instr.wf_eq_true (i : Instr) : i.wf = true := cmdDefined_encode i

theorem fitsWidths_singleton_iff (vs : List Nat) (k : Nat) : fitsWidths vs [k] = true ↔ ∃ v, vs = [v] ∧ v < 2 ^ k := by
  match vs with
  | [] | [_] | _ :: _ :: _ => simp [fitsWidths]

theorem fitsWidths_pair_iff (vs : List Nat) (k k' : Nat) :
    fitsWidths vs [k, k'] = true ↔ ∃ v v', vs = [v, v'] ∧ v < 2 ^ k ∧ v' < 2 ^ k' := by
  match vs with
  | [] | [_] | [_, _] | _ :: _ :: _ :: _ => simp [fitsWidths]

theorem Written.fitsWidths_of_wf {t : Written} (h : t.wf = true) :
    fitsWidths t.operands t.op.operandForm.widths = true :=
  (Bool.and_eq_true_iff.mp h).2

end Sys2Proof

namespace Sys2Proof.Machine

/-- Settles O6: each row of the decoder is the word of its operation, and no row is missing. -/
theorem decodeAndEncodeAgree : Obligations.DecodeAndEncodeAgree :=
  decode_eq_op_iff

/-! ### One step -/

theorem step_next_iff (s t : State) : step s = .next t ↔ s.respond (portExec s.inputs) = t := by
  rw [step_eq_portExec, Host.Outcome.next.injEq]

theorem respond_eq_self_iff (s : State) (o : Outputs) : s.respond o = s ↔ s.outputs = o := by
  obtain ⟨cmd, a, b, y, ill⟩ := s
  obtain ⟨y', ill'⟩ := o
  simp [State.respond, State.outputs, eq_comm]

theorem settled_iff_step (s : State) : Settled s ↔ step s = .next s := by
  rw [step_next_iff, respond_eq_self_iff, Settled]

theorem settled_of_step {s t : State} (h : step s = .next t) : Settled t := by
  rw [step_next_iff] at h
  rw [← h, Settled, State.respond_outputs, State.respond_inputs]

/-- Settles O11: a step writes `portExec` of the inputs, which it leaves alone, and a settled state is one that this does not
change. -/
theorem everyStepSettlesTheOutputs : Obligations.EveryStepSettlesTheOutputs :=
  ⟨fun _ t h => ⟨settled_of_step h, (settled_iff_step t).mp (settled_of_step h)⟩, settled_iff_step⟩

/-- Settles O10: the answer is `portExec` of the inputs the two states share. -/
theorem equalInputsGiveEqualOutputs : Obligations.EqualInputsGiveEqualOutputs :=
  fun s s' h => ⟨portExec s.inputs, step_eq_portExec s, h ▸ step_eq_portExec s'⟩

/-- Settles O1: the outputs at reset are those of HSIGN on positive zero. -/
theorem resetOutputsAreExecOfResetInputs : Obligations.ResetOutputsAreExecOfResetInputs := by
  have hstep : step State.reset = .next State.reset := rfl
  exact ⟨rfl, (settled_iff_step _).mpr hstep⟩

/-- Settles O2, by the defined branch of `step`. -/
theorem stepRunsTheDecodedOperation : Obligations.StepRunsTheDecodedOperation :=
  fun _ i h => ⟨i.wf_eq_true, step_of_op h⟩

/-- Settles O4: every arm of `exec` ends in `answer`, and a reserved command answers too. -/
theorem everyOperationCompletesAndWritesOnlyOutputs : Obligations.EveryOperationCompletesAndWritesOnlyOutputs := by
  refine ⟨fun i s => exec_answers s i, fun s => ?steps, ⟨nofun⟩⟩
  case steps =>
    obtain ⟨⟨y, ill⟩, h⟩ := step_answers s
    exact ⟨y, ill, h⟩

/-! ### Sequences of transactions -/

theorem session_eq_map (s : State) (is : List Inputs) : session s is = is.map portExec := by
  induction is generalizing s with
  | nil => rfl
  | cons i rest ih => simp only [session, transact_eq_portExec, State.respond_outputs, ih, List.map_cons]

/-- Settles O12, by induction on the transactions. -/
theorem sessionAnswersEachTransactionByItsOwnInputs : Obligations.SessionAnswersEachTransactionByItsOwnInputs :=
  session_eq_map

/-- Settles O13: answers paired with their transactions are a map over the list, and maps commute with permuting and with
filtering. -/
theorem orderAndInterleavingChangeNoAnswer : Obligations.OrderAndInterleavingChangeNoAnswer := by
  refine ⟨fun s s' is js hperm => ?order, fun s s' tagged host => ?interleaving⟩
  case order =>
    have hpairs : ∀ (u : State) (l : List Inputs), l.zip (session u l) = l.map fun i => (i, portExec i) := fun u l => by
      simpa [session_eq_map] using List.zip_map' (f := id) (g := portExec) (l := l)
    rw [hpairs, hpairs]
    exact hperm.map _
  case interleaving =>
    rw [session_eq_map, session_eq_map, List.map_map, List.zip_map', List.filter_map, List.map_map, List.map_map]
    rfl

/-- Settles O56: the twelve transactions are evaluated, each by itself. -/
theorem workedExamplesOfTheSource : Obligations.WorkedExamplesOfTheSource := by
  intro s
  rw [session_eq_map]
  decide

/-! ### The delay line of R113 -/

/-- What leaves the line is what it held, then what went in. -/
theorem pipeOutputs_eq_take (regs is : List Inputs) :
    pipeOutputs regs is = ((regs ++ is).map portExec).take is.length := by
  induction is generalizing regs with
  | nil => rfl
  | cons i rest ih =>
    cases regs with
    | nil => simp [pipeOutputs, pipeTick, ih]
    | cons r regs => simp [pipeOutputs, pipeTick, ih]

theorem length_pipeOutputs (regs is : List Inputs) : (pipeOutputs regs is).length = is.length := by
  simp [pipeOutputs_eq_take]

theorem pipeOutputs_nil (is : List Inputs) : pipeOutputs [] is = is.map portExec := by
  rw [pipeOutputs_eq_take, List.nil_append, ← List.length_map, List.take_length]

theorem getElem?_pipeOutputs (regs is : List Inputs) {t : Nat} (ht : regs.length + t < is.length) :
    (pipeOutputs regs is)[regs.length + t]? = is[t]?.map portExec := by
  rw [pipeOutputs_eq_take, List.getElem?_take_of_lt ht, List.getElem?_map,
    List.getElem?_append_right (Nat.le_add_right _ _), Nat.add_sub_cancel_left]

/-- Settles O14: the output at moment `LATENCY + t` is `portExec` of the input at moment `t`, which a step answers. -/
theorem latencyOnlyDelaysTheOutputs : Obligations.LatencyOnlyDelaysTheOutputs := by
  refine ⟨length_pipeOutputs, fun regs is t => getElem?_pipeOutputs regs is, pipeOutputs_nil,
    fun regs is t i o hi ho s => ?answered⟩
  case answered =>
    have ht : regs.length + t < is.length := by
      obtain ⟨h, -⟩ := List.getElem?_eq_some_iff.mp ho
      rwa [length_pipeOutputs] at h
    rw [getElem?_pipeOutputs regs is ht, hi] at ho
    rw [transact_eq_portExec, Option.some.inj ho]

/-! ### Written transactions -/

/-- A value of at most `k` bits is read back from the low `k` bits of `a`. -/
theorem toNat_extractLsb'_ofNat {v k : Nat} (hk : k ≤ 64) (hv : v < 2 ^ k) :
    ((BitVec.ofNat 64 v).extractLsb' 0 k).toNat = v := by
  have hv64 : v < 2 ^ 64 := hv.trans_le (Nat.pow_le_pow_right two_pos hk)
  rw [BitVec.extractLsb'_toNat, BitVec.toNat_ofNat, Nat.shiftRight_zero, Nat.mod_eq_of_lt hv64, Nat.mod_eq_of_lt hv]

/-- Driven to the ports, operands that fit their form are read back (R38, R43). -/
theorem operandsOf_portsOf {f : OperandForm} {vs : List Nat} (h : fitsWidths vs f.widths = true) :
    operandsOf f (portsOf vs).1 (portsOf vs).2 = vs := by
  cases f with
  | HH =>
    obtain ⟨v, v', rfl, hv, hv'⟩ := (fitsWidths_pair_iff _ _ _).mp h
    rw [operandsOf, portsOf, operandH, toNat_extractLsb'_ofNat (by decide) hv, operandB, BitVec.toNat_ofNat,
      Nat.mod_eq_of_lt hv']
  | H | S =>
    obtain ⟨v, rfl, hv⟩ := (fitsWidths_singleton_iff _ _).mp h
    exact congrArg (· :: []) (toNat_extractLsb'_ofNat (by decide) hv)
  | D =>
    obtain ⟨v, rfl, hv⟩ := (fitsWidths_singleton_iff _ _).mp h
    rw [operandsOf, portsOf, operandD, BitVec.toNat_ofNat, Nat.mod_eq_of_lt hv]

theorem fitsWidths_operandsOf (f : OperandForm) (a : Port64) (b : Half) :
    fitsWidths (operandsOf f a b) f.widths = true := by
  cases f with
  | HH => exact (fitsWidths_pair_iff _ _ _).mpr ⟨_, _, rfl, BitVec.isLt _, BitVec.isLt _⟩
  | H | S | D => exact (fitsWidths_singleton_iff _ _).mpr ⟨_, rfl, BitVec.isLt _⟩

theorem agreeOn_of_operandsOf_eq {f : OperandForm} {a a' : Port64} {b b' : Half}
    (h : operandsOf f a b = operandsOf f a' b') : AgreeOn f a b a' b' := by
  cases f with
  | HH =>
    obtain ⟨ha, hb⟩ := List.cons.inj h
    exact ⟨BitVec.eq_of_toNat_eq ha, BitVec.eq_of_toNat_eq (List.head_eq_of_cons_eq hb)⟩
  | H | S | D => exact BitVec.eq_of_toNat_eq (List.head_eq_of_cons_eq h)

/-- `portExec` reads no bit outside the operand form (R38). -/
theorem portExec_congr {op : Instr} {a a' : Port64} {b b' : Half} (h : AgreeOn op.operandForm a b a' b') :
    portExec ⟨encode op, a, b⟩ = portExec ⟨encode op, a', b'⟩ := by
  obtain ⟨result, hexec⟩ := exec_eq_of_readOperands op
  have hport : ∀ c d, portExec ⟨encode op, c, d⟩ = ⟨result (readOperands op.operandForm c d), 0⟩ := fun c d => by
    have h := (exec_eq_portExec op ⟨0, c, d, 0, 0⟩).symm.trans (hexec _)
    exact congrArg State.outputs (Host.Outcome.next.inj h)
  rw [hport, hport, readOperands_congr h]

theorem transact_writtenInputs (s : State) (t : Written) :
    transact s (writtenInputs t) = exec t.op (s.drive (writtenInputs t)) :=
  step_of_op (decode_encode t.op)

theorem operandsOf_writtenInputs {t : Written} (h : t.wf = true) :
    operandsOf t.op.operandForm (writtenInputs t).a (writtenInputs t).b = t.operands :=
  operandsOf_portsOf (Written.fitsWidths_of_wf h)

/-- Settles O15: the command word decodes to the operation, and the ports hold the operands in the low bits. -/
theorem writtenOperandsReachTheOperation : Obligations.WrittenOperandsReachTheOperation := by
  intro t hwf
  refine ⟨fun s => transact_writtenInputs s t, ?operands⟩
  have hread := (operandsOf_writtenInputs hwf).symm
  cases hform : t.op.operandForm <;> rwa [hform] at hread

/-! ### Reading a transaction back -/

theorem readWritten_eq_some_iff (i : Inputs) (t : Written) :
    readWritten i = some t ↔ i.cmd = encode t.op ∧ t.operands = operandsOf t.op.operandForm i.a i.b := by
  obtain ⟨op, operands⟩ := t
  cases h : decode i.cmd with
  | op op' =>
    obtain hcmd := eq_encode_of_decode h
    rw [readWritten_of_op h]
    constructor
    · rintro ⟨⟩
      exact ⟨hcmd, rfl⟩
    · rintro ⟨hop, hoperands⟩
      obtain rfl : op = op' := by simpa [hop] using h
      exact congrArg some (congrArg (Written.mk op) hoperands.symm)
  | reserved r =>
    rw [readWritten_of_reserved h]
    refine iff_of_false nofun fun ⟨hop, _⟩ => ?_
    simp [hop] at h

theorem readWritten_writtenInputs {t : Written} (h : t.wf = true) : readWritten (writtenInputs t) = some t :=
  (readWritten_eq_some_iff _ _).mpr ⟨rfl, (operandsOf_writtenInputs h).symm⟩

theorem readWritten_eq_none_iff (i : Inputs) : readWritten i = none ↔ cmdDefined i.cmd = false := by
  rw [cmdDefined_eq_false_iff]
  cases h : decode i.cmd with
  | op op => simp [readWritten_of_op h]
  | reserved r => simp [readWritten_of_reserved h]

theorem wf_of_readWritten {i : Inputs} {t : Written} (h : readWritten i = some t) : t.wf = true := by
  obtain ⟨-, hoperands⟩ := (readWritten_eq_some_iff i t).mp h
  rw [Written.wf, Instr.wf_eq_true, Bool.true_and, hoperands]
  exact fitsWidths_operandsOf _ _ _

/-- The bits a transaction does not write are bits its operation does not read. -/
theorem portExec_writtenInputs_of_readWritten {i : Inputs} {t : Written} (h : readWritten i = some t) :
    portExec (writtenInputs t) = portExec i := by
  obtain ⟨hcmd, hoperands⟩ := (readWritten_eq_some_iff i t).mp h
  have hagree := agreeOn_of_operandsOf_eq ((operandsOf_writtenInputs (wf_of_readWritten h)).trans hoperands)
  obtain ⟨cmd, a, b⟩ := i
  obtain rfl : cmd = encode t.op := hcmd
  exact portExec_congr hagree

/-- Settles O57: the operands read from the ports determine the bits the operation reads, hence the answer. -/
theorem writtenTransactionsReadBack : Obligations.WrittenTransactionsReadBack := by
  refine ⟨fun t => readWritten_writtenInputs, fun i t h => ⟨wf_of_readWritten h, fun s => ⟨portExec i, ?own, ?written⟩⟩,
    readWritten_eq_none_iff⟩
  case own => exact transact_eq_portExec s i
  case written => rw [transact_eq_portExec, portExec_writtenInputs_of_readWritten h]

end Sys2Proof.Machine
end

section
/-! The named constants of R24, and the six operators of the comparator against exact values (R87 to R93). -/

namespace Sys2Proof.Machine

/-- Settles O24: the patterns are definitions, the classes and the exact values are evaluated. -/
theorem constantsHaveTheirPatterns : Obligations.ConstantsHaveTheirPatterns :=
  ⟨rfl, rfl, rfl, rfl, rfl, rfl, rfl, rfl, by decide, rfl, rfl, rfl, by decide +kernel, by decide +kernel, by decide +kernel⟩

theorem truth64_eq_one_iff (t : Bool) : truth64 t = 1 ↔ t = true := by
  cases t <;> decide

theorem truth64_eq_zero_or_one (t : Bool) : truth64 t = 0 ∨ truth64 t = 1 := by
  cases t <;> decide

theorem extH_le_iff {p q : Half} (hp : isNaN p = false) (hq : isNaN q = false) :
    extH p ≤ extH q ↔ keyOf p ≤ keyOf q := by
  rw [← not_lt, extH_lt_iff hq hp, not_lt]

/-- On non-NaN operands each operator is its relation of exact values, because the value key orders as they do. -/
theorem operators_iff_extH {p q : Half} (hp : isNaN p = false) (hq : isNaN q = false) :
    (ieeeEq p q = true ↔ extH p = extH q) ∧ (ieeeNe p q = true ↔ extH p ≠ extH q) ∧
    (ieeeLt p q = true ↔ extH p < extH q) ∧ (ieeeLe p q = true ↔ extH p ≤ extH q) ∧
    (ieeeGt p q = true ↔ extH p > extH q) ∧ (ieeeGe p q = true ↔ extH p ≥ extH q) := by
  have hpm := (isNaN_eq_false_iff p).mp hp
  have hqm := (isNaN_eq_false_iff q).mp hq
  rw [Ne, gt_iff_lt, ge_iff_le, extH_eq_iff hp hq, extH_lt_iff hp hq, extH_le_iff hp hq, extH_lt_iff hq hp, extH_le_iff hq hp,
    ieeeEq_iff, ieeeNe_iff, ieeeLt_iff, ieeeLe_iff, ieeeGt_iff, ieeeGe_iff]
  simp only [hpm, hqm, true_and, gt_iff_lt, ge_iff_le, and_self]

/-- Settles O50: a NaN makes every operator but `!=` false, and elsewhere `operators_iff_extH` applies. -/
theorem operatorsCompareExactValues : Obligations.OperatorsCompareExactValues := by
  refine fun s => ⟨_, _, _, _, _, _, exec_heq s, exec_hne s, exec_hlt s, exec_hle s, exec_hgt s, exec_hge s, ?values, ?truth⟩
  case values =>
    split
    case isTrue hnan =>
      obtain ⟨heq, hlt, hle, hgt, hge⟩ := operators_false_of_nan hnan
      simp [operandH, ieeeNe, heq, hlt, hle, hgt, hge]
    case isFalse hnum =>
      obtain ⟨hp, hq⟩ := not_or.mp hnum
      simp only [truth64_eq_one_iff]
      exact operators_iff_extH (Bool.eq_false_iff.mpr hp) (Bool.eq_false_iff.mpr hq)
  case truth =>
    simp only [List.forall_mem_cons, truth64_eq_zero_or_one, List.not_mem_nil, false_imp_iff, implies_true, and_self]

end Sys2Proof.Machine
end

section
/-! Narrowing to the nearest half (spec/42_narrowing.md R79 to R85): the increment of R79, the magnitude bits of R82 as the
nearest point of the halves' grid, and what follows from that. -/

namespace Sys2Proof.Machine

/-! ### The increment of R79 -/

theorem roundUp_le_one (sig shift : ℕ) : roundUp sig shift ≤ 1 := by
  simp only [roundUp]
  split <;> omega

/-- A remainder above half has the guard bit and a sticky bit, one of exactly half the guard bit alone. -/
theorem roundUp_eq_guard_sticky {sig shift : ℕ} (hshift : 1 ≤ shift) :
    roundUp sig shift = if sig.testBit (shift - 1) && (decide (sig % 2 ^ (shift - 1) ≠ 0) || (sig / 2 ^ shift).testBit 0)
      then 1 else 0 := by
  obtain ⟨k, rfl⟩ : ∃ k, shift = k + 1 := ⟨shift - 1, by omega⟩
  have hpow : 2 ^ (k + 1) = 2 * 2 ^ k := Nat.pow_succ'
  have hrem : sig % (2 * 2 ^ k) = sig % 2 ^ k + 2 ^ k * (sig / 2 ^ k % 2) := by rw [mul_comm, Nat.mod_mul]
  have hlow : sig % 2 ^ k < 2 ^ k := Nat.mod_lt _ (Nat.two_pow_pos k)
  rw [roundUp_eq hshift, Nat.add_sub_cancel, hpow, hrem]
  refine if_congr ?_ rfl rfl
  simp only [Bool.and_eq_true, Bool.or_eq_true, decide_eq_true_eq, Nat.testBit_eq_decide_div_mod_eq, pow_zero, Nat.div_one]
  obtain hguard | hguard := Nat.mod_two_eq_zero_or_one (sig / 2 ^ k) <;> rw [hguard] <;> omega

/-- The largest exponent and significand give `29 * 1024 + 2047`, one below the infinity pattern. -/
theorem roundBits_le {mw sig : ℕ} {e : ℤ} (hmw : 10 ≤ mw) (hsig : sig < 2 ^ (mw + 1)) (he : e ≤ 15) :
    roundBits mw e sig ≤ 0x7C00 := by
  have hup := roundUp_le_one sig (roundShift mw e)
  have hshift : mw - 10 ≤ roundShift mw e := by
    rw [roundShift]
    split <;> omega
  have hkept : sig >>> roundShift mw e < 2048 := by
    rw [Nat.shiftRight_eq_div_pow, Nat.div_lt_iff_lt_mul (Nat.two_pow_pos _)]
    calc sig < 2 ^ (mw + 1) := hsig
      _ ≤ 2 ^ (11 + roundShift mw e) := Nat.pow_le_pow_right two_pos (by omega)
      _ = 2048 * 2 ^ roundShift mw e := Nat.pow_add 2 11 _
  have hbase : roundBase e ≤ 29 * 1024 := by
    rw [roundBase]
    split
    · rw [Nat.shiftLeft_eq]
      omega
    · omega
  rw [roundBits]
  omega

/-- Settles O37: the bits below the retained ones are guard and sticky, and the three summands are bounded one by one. -/
theorem roundingUsesGuardAndSticky : Obligations.RoundingUsesGuardAndSticky :=
  ⟨fun _ _ => roundUp_eq_guard_sticky, fun _ _ _ hmw _ hhi _ he => roundBits_le hmw hhi he⟩

/-! ### The grid of the halves -/

theorem strictMono_scaledMag : StrictMono scaledMag := strictMono_nat_of_lt_succ scaledMag_lt_succ

/-- In the binade of exponent field `k + 1`, from its first value to its end, the grid has step `2^k`; the subnormals below
field 1 have the same step. -/
theorem scaledMag_binade {k q : ℕ} (hlo : k = 0 ∨ 1024 ≤ q) (hhi : q ≤ 2048) : scaledMag (k * 1024 + q) = q * 2 ^ k := by
  obtain hsub | hlow | rfl : q < 1024 ∨ (1024 ≤ q ∧ q < 2048) ∨ q = 2048 := by omega
  · obtain rfl : k = 0 := by omega
    rw [scaledMag, if_pos (by omega)]
    omega
  · have hfield : (k * 1024 + q) / 1024 = k + 1 := by omega
    have hmant : 1024 + (k * 1024 + q) % 1024 = q := by omega
    rw [scaledMag, hfield, hmant, if_neg (Nat.succ_ne_zero k), Nat.add_sub_cancel]
  · have hfield : (k * 1024 + 2048) / 1024 = k + 2 := by omega
    have hmant : 1024 + (k * 1024 + 2048) % 1024 = 1024 := by omega
    rw [scaledMag, hfield, hmant, if_neg (Nat.succ_ne_zero _), Nat.add_sub_assoc (by decide), Nat.pow_succ]
    ring

/-- Halfway between the magnitudes with bits `m` and `m + 1`, in units of `2^-24`. -/
def midpoint (m : ℕ) : ℚ := (scaledMag m + scaledMag (m + 1)) / 2

theorem scaledMag_lt_midpoint (m : ℕ) : scaledMag m < midpoint m := by
  have hlt : (scaledMag m : ℚ) < scaledMag (m + 1) := by exact_mod_cast scaledMag_lt_succ m
  rw [midpoint]
  linarith

theorem midpoint_lt_scaledMag {m n : ℕ} (h : m < n) : midpoint m < scaledMag n := by
  have hlt : (scaledMag m : ℚ) < scaledMag (m + 1) := by exact_mod_cast scaledMag_lt_succ m
  have hle : (scaledMag (m + 1) : ℚ) ≤ scaledMag n := by exact_mod_cast strictMono_scaledMag.monotone h
  rw [midpoint]
  linarith

theorem strictMono_midpoint : StrictMono midpoint := fun _ n h =>
  (midpoint_lt_scaledMag h).trans (scaledMag_lt_midpoint n)

theorem midpoint_binade {k n : ℕ} (hlo : k = 0 ∨ 1024 ≤ n) (hhi : n < 2048) :
    midpoint (k * 1024 + n) = (n + 1 / 2) * 2 ^ k := by
  rw [midpoint, Nat.add_assoc, scaledMag_binade hlo hhi.le, scaledMag_binade (hlo.imp_right (by omega)) hhi]
  push_cast
  ring

/-- The overflow threshold is halfway between the largest finite half and the next point of its binade. -/
theorem midpoint_maxValue : midpoint 0x7BFF = 65520 * 2 ^ (24 : ℤ) := by
  have h := midpoint_binade (k := 29) (n := 2047) (.inr (by decide)) (by decide)
  norm_num at h ⊢
  exact h

/-! ### The magnitude bits of R82 as the nearest grid point -/

section Nearest

variable {v : ℚ} {m : ℕ}

/-- R82's two formulas are one: `k` binades of 1024 patterns, and RNE in steps of `2^k`. -/
theorem exists_binade (h : v < 65520) : ∃ (k : ℕ) (q : ℚ),
    (k = 0 ∨ 1024 ≤ q) ∧ q < 2048 ∧ v * 2 ^ (24 : ℤ) = q * 2 ^ k ∧ magbits v = k * 1024 + rne q := by
  obtain hsub | hnorm := lt_or_ge v (2 ^ (-14 : ℤ))
  · refine ⟨0, v * 2 ^ (24 : ℤ), .inl rfl, ?_, by rw [pow_zero, mul_one], by simpa using magbits_of_lt_normal hsub⟩
    norm_num at hsub ⊢
    linarith
  · have hpos : 0 < v := lt_of_lt_of_le (by norm_num) hnorm
    have hlog : -14 ≤ Int.log 2 v := (Int.zpow_le_iff_le_log one_lt_two hpos).mp hnorm
    have hge : 2 ^ Int.log 2 v ≤ v := by simpa using Int.zpow_log_le_self one_lt_two hpos
    obtain ⟨k, hk⟩ := Int.eq_ofNat_of_zero_le (show 0 ≤ Int.log 2 v + 14 by omega)
    refine ⟨k, v * 2 ^ (10 - Int.log 2 v), .inr ?_, mul_zpow_log_lt v, ?_, hk ▸ magbits_of_normal hnorm h⟩
    · calc (1024 : ℚ) = 2 ^ Int.log 2 v * 2 ^ (10 - Int.log 2 v) := by
            rw [← zpow_add₀ two_ne_zero, add_sub_cancel]
            norm_num
        _ ≤ v * 2 ^ (10 - Int.log 2 v) := by gcongr
    · rw [mul_assoc, ← zpow_natCast, ← zpow_add₀ two_ne_zero, ← hk]
      congr 2
      ring

/-- Patterns below the binade of `q * 2^k`, in it, and above it. -/
theorem binade_le_iff {k : ℕ} {q : ℚ} (hlo : k = 0 ∨ 1024 ≤ q) (hhi : q < 2048) :
    k * 1024 + rne q ≤ m ↔ q * 2 ^ k < midpoint m ∨ (q * 2 ^ k = midpoint m ∧ m % 2 = 0) := by
  have hpow : (0 : ℚ) < 2 ^ k := by positivity
  obtain ⟨hk, hbelow⟩ | ⟨hn, hn'⟩ | habove : (k ≠ 0 ∧ m < k * 1024 + 1024) ∨
      ((k = 0 ∨ k * 1024 + 1024 ≤ m) ∧ m < k * 1024 + 2048) ∨ k * 1024 + 2048 ≤ m := by omega
  · have hq : 1024 ≤ q := hlo.resolve_left hk
    have hrne : ¬rne q ≤ 1023 := by
      rw [rne_le_iff]
      push_cast
      rintro (h | ⟨h, -⟩) <;> linarith
    have hmid : midpoint m < q * 2 ^ k := by
      calc midpoint m < scaledMag (k * 1024 + 1024) := midpoint_lt_scaledMag hbelow
        _ = 1024 * 2 ^ k := by rw [scaledMag_binade (.inr le_rfl) (by decide)]; push_cast; rfl
        _ ≤ q * 2 ^ k := by gcongr
    exact iff_of_false (by omega) (by rintro (h | ⟨h, -⟩) <;> linarith)
  · obtain ⟨n, rfl⟩ : ∃ n, m = k * 1024 + n := ⟨m - k * 1024, by omega⟩
    have hparity : (k * 1024 + n) % 2 = 0 ↔ (n : ℤ) % 2 = 0 := by omega
    have hle : (k * 1024 + rne q ≤ ((k * 1024 + n : ℕ) : ℤ)) ↔ rne q ≤ n := by
      push_cast
      exact add_le_add_iff_left _
    rw [midpoint_binade (by omega) (by omega), mul_lt_mul_iff_left₀ hpow, mul_left_inj' hpow.ne', hparity, hle, rne_le_iff]
    push_cast
    rfl
  · have hrne : rne q ≤ 2048 := by
      rw [rne_le_iff]
      left
      push_cast
      linarith
    have hmid : q * 2 ^ k < midpoint m := by
      calc q * 2 ^ k < 2048 * 2 ^ k := by gcongr
        _ = scaledMag (k * 1024 + 2048) := by rw [scaledMag_binade (.inr (by decide)) le_rfl]; push_cast; rfl
        _ ≤ scaledMag m := by exact_mod_cast strictMono_scaledMag.monotone habove
        _ < midpoint m := scaledMag_lt_midpoint m
    exact iff_of_true (by omega) (.inl hmid)

/-- Magnitudes are rounded at the midpoints, and a midpoint goes to the even neighbour. -/
theorem magbits_le_iff (hm : m < 0x7C00) :
    magbits v ≤ m ↔ v * 2 ^ (24 : ℤ) < midpoint m ∨ (v * 2 ^ (24 : ℤ) = midpoint m ∧ m % 2 = 0) := by
  obtain hsat | hfin := le_or_gt 65520 v
  · have hthreshold : midpoint 0x7BFF ≤ v * 2 ^ (24 : ℤ) := by
      rw [midpoint_maxValue]
      gcongr
    have hmono := strictMono_midpoint.monotone (show m ≤ 0x7BFF by omega)
    rw [magbits_of_ge hsat]
    refine iff_of_false (by omega) ?_
    rintro (hlt | ⟨htie, heven⟩)
    · linarith
    · have hmax : m = 0x7BFF := strictMono_midpoint.injective (by linarith)
      omega
  · obtain ⟨k, q, hlo, hhi, hw, hbits⟩ := exists_binade hfin
    rw [hw, hbits]
    exact binade_le_iff hlo hhi

theorem magbits_nonneg (h0 : 0 ≤ v) : 0 ≤ magbits v := by
  obtain hsat | hfin := le_or_gt 65520 v
  · rw [magbits_of_ge hsat]
    decide
  · obtain ⟨k, q, -, -, hw, hbits⟩ := exists_binade hfin
    have hpow : (0 : ℚ) < 2 ^ k := by positivity
    have hq : 0 ≤ q := nonneg_of_mul_nonneg_left (hw ▸ by positivity) hpow
    have hrne : ¬rne q ≤ -1 := by
      rw [rne_le_iff]
      push_cast
      rintro (h | ⟨h, -⟩) <;> linarith
    omega

theorem monotoneOn_magbits : MonotoneOn magbits (Set.Ici 0) := by
  intro v _ v' hv' hle
  lift magbits v' to ℕ using magbits_nonneg hv' with m hm
  obtain hsat | hfin := Nat.lt_or_ge m 0x7C00
  · have hround := (magbits_le_iff hsat).mp hm.ge
    have hscaled : v * 2 ^ (24 : ℤ) ≤ v' * 2 ^ (24 : ℤ) := by gcongr
    refine (magbits_le_iff hsat).mpr ?_
    obtain hlt | ⟨htie, heven⟩ := hround
    · exact .inl (hscaled.trans_lt hlt)
    · exact (hscaled.trans_eq htie).lt_or_eq.imp_right (⟨·, heven⟩)
  · exact (magbits_le v).trans (by omega)

/-- A grid point is rounded to itself. -/
theorem magbits_scaledMag (hm : m < 0x7C00) : magbits (scaledMag m * 2 ^ (-24 : ℤ)) = m := by
  have hunits : (scaledMag m * 2 ^ (-24 : ℤ) * 2 ^ (24 : ℤ) : ℚ) = scaledMag m := by
    rw [mul_assoc, ← zpow_add₀ two_ne_zero, neg_add_cancel, zpow_zero, mul_one]
  refine le_antisymm ((magbits_le_iff hm).mpr (.inl ?upper)) ?lower
  case upper =>
    rw [hunits]
    exact scaledMag_lt_midpoint m
  case lower =>
    cases m with
    | zero => exact magbits_nonneg (by positivity)
    | succ p =>
      have hmid := midpoint_lt_scaledMag (Nat.lt_succ_self p)
      have habove : ¬magbits (scaledMag (p + 1) * 2 ^ (-24 : ℤ)) ≤ p := by
        rw [magbits_le_iff (by omega), hunits]
        rintro (h | ⟨h, -⟩) <;> linarith
      omega

/-- The halfway rule on a line: at or above the midpoint of `c` and `b`, nothing at or below `c` is nearer than `b`. -/
theorem abs_sub_le_of_midpoint_le {a b c w : ℚ} (hac : a ≤ c) (hcb : c < b) (hw : (c + b) / 2 ≤ w) :
    |w - b| ≤ |w - a| ∧ (|w - b| = |w - a| → w = (c + b) / 2) := by
  rw [abs_of_nonneg (show 0 ≤ w - a by linarith)]
  obtain ⟨habs, -⟩ | ⟨habs, -⟩ := abs_cases (w - b)
  · exact ⟨by linarith, fun h => by linarith⟩
  · exact ⟨by linarith, fun h => by linarith⟩

theorem abs_sub_le_of_le_midpoint {a b c w : ℚ} (hac : c ≤ a) (hcb : b < c) (hw : w ≤ (b + c) / 2) :
    |w - b| ≤ |w - a| ∧ (|w - b| = |w - a| → w = (b + c) / 2) := by
  have h := abs_sub_le_of_midpoint_le (neg_le_neg hac) (neg_lt_neg hcb) (w := -w) (by linarith)
  rw [neg_sub_neg, neg_sub_neg, abs_sub_comm b, abs_sub_comm a] at h
  exact h.imp_right fun htie heq => by linarith [htie heq]

theorem magbits_nearest (h : v < 65520) (hm : magbits v = m) (g : ℕ) :
    |v * 2 ^ (24 : ℤ) - scaledMag m| ≤ |v * 2 ^ (24 : ℤ) - scaledMag g| ∧
      (|v * 2 ^ (24 : ℤ) - scaledMag m| = |v * 2 ^ (24 : ℤ) - scaledMag g| → g = m ∨ m % 2 = 0) := by
  have hfin := magbits_le_of_lt h
  obtain hlt | rfl | hgt := lt_trichotomy g m
  · obtain ⟨p, rfl⟩ : ∃ p, m = p + 1 := ⟨m - 1, by omega⟩
    have hround := mt (magbits_le_iff (v := v) (m := p) (by omega)).mpr (by omega)
    push Not at hround
    obtain ⟨hmid, hodd⟩ := hround
    have hga : (scaledMag g : ℚ) ≤ scaledMag p := by exact_mod_cast strictMono_scaledMag.monotone (by omega : g ≤ p)
    have hstep : (scaledMag p : ℚ) < scaledMag (p + 1) := by exact_mod_cast scaledMag_lt_succ p
    obtain ⟨hle, htie⟩ := abs_sub_le_of_midpoint_le hga hstep hmid
    exact ⟨hle, fun heq => .inr (by have := hodd (htie heq); omega)⟩
  · exact ⟨le_rfl, fun _ => .inl rfl⟩
  · have hround := (magbits_le_iff (v := v) (m := m) (by omega)).mp hm.le
    have hga : (scaledMag (m + 1) : ℚ) ≤ scaledMag g := by exact_mod_cast strictMono_scaledMag.monotone hgt
    have hstep : (scaledMag m : ℚ) < scaledMag (m + 1) := by exact_mod_cast scaledMag_lt_succ m
    obtain hbelow | ⟨hmid, heven⟩ := hround
    · obtain ⟨hle, htie⟩ := abs_sub_le_of_le_midpoint hga hstep hbelow.le
      exact ⟨hle, fun heq => absurd (htie heq) hbelow.ne⟩
    · exact ⟨(abs_sub_le_of_le_midpoint hga hstep hmid.le).1, fun _ => .inr heven⟩

end Nearest

end Sys2Proof.Machine
end

section
/-! Exactness of the widening converter (spec/41_widening.md R74): the fields of a widened half at every wide format. -/

namespace Sys2Proof.Machine

/-! ### The fields of a packed wide value -/

section Pack

variable {ew mw : ℕ}

theorem wideSign_packWide (s : Bit) (e m : ℕ) : wideSign (packWide ew mw s e m) = s := by
  rw [wideSign, packWide, BitVec.extractLsb'_append_eq_of_le (Nat.le_add_left mw ew), Nat.add_sub_cancel,
    BitVec.extractLsb'_append_eq_left]

theorem wideExp_packWide (s : Bit) {e : ℕ} (m : ℕ) (he : e < 2 ^ ew) : wideExp (packWide ew mw s e m) = e := by
  rw [wideExp, packWide, BitVec.extractLsb'_append_eq_of_le le_rfl, Nat.sub_self, BitVec.extractLsb'_append_eq_right,
    BitVec.toNat_ofNat, Nat.mod_eq_of_lt he]

theorem wideMant_packWide (s : Bit) (e : ℕ) {m : ℕ} (hm : m < 2 ^ mw) : wideMant (packWide ew mw s e m) = m := by
  rw [wideMant, packWide, BitVec.extractLsb'_append_eq_right, BitVec.toNat_ofNat, Nat.mod_eq_of_lt hm]

theorem shiftLeft_lt_two_pow {m : ℕ} (hmw : 10 < mw) (hm : m < 1024) : m <<< (mw - 10) < 2 ^ mw := by
  rw [Nat.shiftLeft_eq, ← Nat.add_sub_cancel' hmw.le, Nat.pow_add, Nat.add_sub_cancel_left]
  exact Nat.mul_lt_mul_of_pos_right hm (Nat.two_pow_pos _)

theorem onesOf_lt (ew : ℕ) : onesOf ew < 2 ^ ew := Nat.sub_lt (Nat.two_pow_pos ew) one_pos

theorem onesOf_eq (hbias : 1 ≤ biasOf ew) : onesOf ew = 2 * biasOf ew + 1 := by
  obtain ⟨k, rfl⟩ : ∃ k, ew = k + 1 := by
    refine Nat.exists_eq_add_one.mpr (Nat.pos_of_ne_zero ?_)
    rintro rfl
    exact absurd hbias (by decide)
  have := Nat.two_pow_pos k
  rw [onesOf, biasOf, Nat.add_sub_cancel, Nat.pow_succ']
  omega

/-- A packed normal with a mantissa of ten bits at the top. -/
theorem valWide_packWide_normal (hmw : 10 < mw) (s : Bit) {e f : ℕ} (he : e ≠ 0) (he' : e < 2 ^ ew) (hf : f < 1024) :
    valWide (packWide ew mw s e (f <<< (mw - 10))) = signFactor s * ((1024 + f) * 2 ^ ((e : ℤ) - biasOf ew - 10)) := by
  have hshift : (2 : ℚ) ^ mw + ((f <<< (mw - 10) : ℕ) : ℚ) = (1024 + f) * 2 ^ ((mw : ℤ) - 10) := by
    obtain ⟨k, rfl⟩ : ∃ k, mw = 10 + k := ⟨mw - 10, by omega⟩
    have hk : (((10 + k : ℕ) : ℤ) - 10) = k := by omega
    rw [hk, zpow_natCast, Nat.shiftLeft_eq, Nat.add_sub_cancel_left]
    push_cast
    ring
  rw [valWide, wideExp_packWide s _ he', if_neg he, wideSign_packWide, wideMant_packWide s e (shiftLeft_lt_two_pow hmw hf),
    mul_assoc, hshift, mul_assoc, ← zpow_add₀ two_ne_zero]
  congr 3
  ring

end Pack

/-! ### A widened half -/

/-- A finite half other than zero is a normal of every wide format: true exponent `d - 24`, ten mantissa bits `f` (R69, R71). -/
theorem widen_of_finite_of_ne_zero {h : Half} (hfin : expNat h ≠ 31) (hne : ¬(expNat h = 0 ∧ mantNat h = 0)) :
    ∃ d f : ℕ, d ≤ 39 ∧ f < 1024 ∧ |valH h| = (1024 + f) * 2 ^ ((d : ℤ) - 34) ∧
      ∀ ew mw, 26 ≤ biasOf ew → widen ew mw h = packWide ew mw (sign h) (biasOf ew - 24 + d) (f <<< (mw - 10)) := by
  have hexp := expNat_lt h
  by_cases h0 : expNat h = 0
  · have hm : mantNat h ≠ 0 := fun hm => hne ⟨h0, hm⟩
    obtain ⟨hlo, hhi⟩ := (Nat.log2_eq_iff hm).mp rfl
    have hj := highest_bit_le_nine hlo
    obtain ⟨hge, hlt⟩ := leading_bit_at_ten (by omega) hlo hhi
    refine ⟨(mantNat h).log2, _, by omega, by omega, ?value, fun ew mw hbias =>
      widen_of_highest_bit ew mw (by omega) h0 hlo hhi⟩
    case value =>
      have hscale : (((10 - (mantNat h).log2 : ℕ) : ℤ) + ((mantNat h).log2 - 34)) = -24 := by omega
      rw [abs_valH, if_pos h0, Nat.cast_sub hge, Nat.cast_mul, Nat.cast_pow, Nat.cast_ofNat, Nat.cast_ofNat,
        add_sub_cancel, mul_assoc, ← zpow_natCast, ← zpow_add₀ two_ne_zero, hscale]
  · refine ⟨expNat h + 9, mantNat h, by omega, mantNat_lt h, ?value, fun ew mw hbias => ?packed⟩
    case value =>
      have hscale : ((expNat h + 9 : ℕ) : ℤ) - 34 = expNat h - 25 := by omega
      rw [abs_valH, if_neg h0, hscale]
    case packed =>
      rw [widen_of_normal ew mw (by omega) (by omega) (by omega)]
      congr 1
      omega

section Widened

variable {ew mw : ℕ} (hmw : 10 < mw) (hbias : 26 ≤ biasOf ew) (h : Half)

theorem wideSign_widen (ew mw : ℕ) (h : Half) : wideSign (widen ew mw h) = sign h := by
  obtain ⟨e, m, hw⟩ := widen_eq_packWide_shiftLeft ew mw h
  rw [hw, wideSign_packWide]

theorem wideExp_widen_of_allOnes (ew mw : ℕ) {h : Half} (he : expNat h = 31) : wideExp (widen ew mw h) = onesOf ew := by
  rw [widen_of_allOnes ew mw he, wideExp_packWide _ _ (onesOf_lt ew)]

include hmw in
theorem wideMant_widen_of_allOnes {h : Half} (he : expNat h = 31) :
    wideMant (widen ew mw h) = mantNat h * 2 ^ (mw - 10) := by
  rw [widen_of_allOnes ew mw he, wideMant_packWide _ _ (shiftLeft_lt_two_pow hmw (mantNat_lt h)), Nat.shiftLeft_eq]

theorem wideExp_widen_of_zero (ew mw : ℕ) {h : Half} (he : expNat h = 0) (hm : mantNat h = 0) :
    wideExp (widen ew mw h) = 0 := by
  rw [widen_of_zero ew mw he hm, wideExp_packWide _ _ (Nat.two_pow_pos ew)]

theorem wideMant_widen_of_zero (ew mw : ℕ) {h : Half} (he : expNat h = 0) (hm : mantNat h = 0) :
    wideMant (widen ew mw h) = 0 := by
  rw [widen_of_zero ew mw he hm, wideMant_packWide _ _ (Nat.two_pow_pos mw)]

include hbias in
/-- The rebiased exponent of a finite half stays off both ends of the field. -/
theorem wideExp_widen_of_finite_of_ne_zero {h : Half} (hfin : expNat h ≠ 31) (hne : ¬(expNat h = 0 ∧ mantNat h = 0)) :
    1 ≤ wideExp (widen ew mw h) ∧ wideExp (widen ew mw h) < onesOf ew := by
  obtain ⟨d, f, hd, -, -, hw⟩ := widen_of_finite_of_ne_zero hfin hne
  have hones := onesOf_eq (by omega : 1 ≤ biasOf ew)
  have hlt := onesOf_lt ew
  rw [hw ew mw hbias, wideExp_packWide _ _ (by omega)]
  omega

include hbias in
theorem wideExp_widen_eq_onesOf_iff : wideExp (widen ew mw h) = onesOf ew ↔ expNat h = 31 := by
  refine ⟨fun hones => ?_, wideExp_widen_of_allOnes ew mw⟩
  by_contra hfin
  by_cases hzero : expNat h = 0 ∧ mantNat h = 0
  · have := onesOf_eq (by omega : 1 ≤ biasOf ew)
    have := wideExp_widen_of_zero ew mw hzero.1 hzero.2
    omega
  · have := wideExp_widen_of_finite_of_ne_zero (mw := mw) hbias hfin hzero
    omega

include hbias in
theorem wideExp_widen_eq_zero_iff : wideExp (widen ew mw h) = 0 ↔ expNat h = 0 ∧ mantNat h = 0 := by
  refine ⟨fun h0 => ?_, fun ⟨he, hm⟩ => wideExp_widen_of_zero ew mw he hm⟩
  by_contra hne
  by_cases hfin : expNat h = 31
  · have := onesOf_eq (by omega : 1 ≤ biasOf ew)
    have := wideExp_widen_of_allOnes ew mw hfin
    omega
  · have := wideExp_widen_of_finite_of_ne_zero (mw := mw) hbias hfin hne
    omega

/-! ### The clauses of R74 -/

include hmw hbias

theorem valWide_widen {h : Half} (hfin : isFinite h) : valWide (widen ew mw h) = valH h := by
  have he : expNat h ≠ 31 := by
    have := (isFinite_iff h).mp hfin
    rw [mag_eq_fields] at this
    omega
  by_cases hzero : expNat h = 0 ∧ mantNat h = 0
  · obtain ⟨h0, hm⟩ := hzero
    rw [valWide, if_pos (wideExp_widen_of_zero ew mw h0 hm), wideMant_widen_of_zero ew mw h0 hm, valH, if_pos h0, hm,
      Nat.cast_zero, mul_zero, zero_mul, mul_zero, zero_mul]
  · obtain ⟨d, f, hd, hf, habs, hw⟩ := widen_of_finite_of_ne_zero he hzero
    have hones := onesOf_eq (by omega : 1 ≤ biasOf ew)
    have hlt := onesOf_lt ew
    have hexp : ((biasOf ew - 24 + d : ℕ) : ℤ) - biasOf ew - 10 = d - 34 := by omega
    rw [hw ew mw hbias, valWide_packWide_normal hmw _ (by omega) (by omega) hf, valH_eq_signFactor_mul_abs, habs, hexp]

theorem wideNaN_widen : wideNaN (widen ew mw h) = isNaN h := by
  rw [Bool.eq_iff_iff, wideNaN_iff, isNaN_iff_fields, wideExp_widen_eq_onesOf_iff hbias]
  refine and_congr_right fun he => not_congr ?_
  simp [wideMant_widen_of_allOnes hmw he]

theorem wideInf_widen : wideInf (widen ew mw h) = isInf h := by
  rw [Bool.eq_iff_iff, wideInf_iff, isInf_iff_fields, wideExp_widen_eq_onesOf_iff hbias]
  refine and_congr_right fun he => ?_
  simp [wideMant_widen_of_allOnes hmw he]

omit hmw in
theorem isZero_iff_widen : isZero h = true ↔ wideExp (widen ew mw h) = 0 ∧ wideMant (widen ew mw h) = 0 := by
  rw [isZero_iff_fields, wideExp_widen_eq_zero_iff hbias]
  exact ⟨fun hz => ⟨hz, wideMant_widen_of_zero ew mw hz.1 hz.2⟩, And.left⟩

omit hmw in
theorem isSubnormal_or_isNormal_iff_widen : isSubnormal h = true ∨ isNormal h = true ↔
    1 ≤ wideExp (widen ew mw h) ∧ wideExp (widen ew mw h) < onesOf ew := by
  have hexp := expNat_lt h
  rw [isSubnormal_iff_fields, isNormal_iff_fields]
  constructor
  · exact fun hcat => wideExp_widen_of_finite_of_ne_zero hbias (by omega) (by omega)
  · rintro ⟨hlo, hhi⟩
    have hzero := mt (wideExp_widen_eq_zero_iff (mw := mw) hbias h).mpr (by omega)
    have hones := mt (wideExp_widen_eq_onesOf_iff (mw := mw) hbias h).mpr (by omega)
    omega

omit hbias in
theorem wideMant_widen_of_nan {h : Half} (hnan : isNaN h) : wideMant (widen ew mw h) / 2 ^ (mw - 1) = (quiet h).toNat := by
  obtain ⟨he, -⟩ := (isNaN_iff_fields h).mp hnan
  have hpow : 2 ^ (mw - 1) = 512 * 2 ^ (mw - 10) := by rw [← Nat.pow_add 2 9, show 9 + (mw - 10) = mw - 1 by omega]
  have hm := mantNat_lt h
  rw [wideMant_widen_of_allOnes hmw he, hpow, Nat.mul_div_mul_right _ _ (Nat.two_pow_pos _), quiet_toNat, mantNat_eq]
  omega

end Widened

/-- What holds of `widen` at all widths with more than a half's mantissa and range of exponents holds of HWID.S and HWID.D. -/
theorem widens_of_widen {P : (ew mw : ℕ) → Half → BitVec (1 + ew + mw) → Prop}
    (h : ∀ ew mw p, 10 < mw → 26 ≤ biasOf ew → P ew mw p (widen ew mw p)) : Widens P :=
  ⟨fun s => ⟨_, exec_hwidS s, h 8 23 _ (by decide) (by decide)⟩,
    fun s => ⟨_, exec_hwidD s, h 11 52 _ (by decide) (by decide)⟩⟩

/-- Settles O30, clause by clause of R74. -/
theorem wideningIsExact : Obligations.WideningIsExact :=
  widens_of_widen fun ew mw p hmw hbias =>
    ⟨valWide_widen hmw hbias, wideSign_widen ew mw p, wideNaN_widen hmw hbias p, wideInf_widen hmw hbias p,
      isZero_iff_widen hbias p, isSubnormal_or_isNormal_iff_widen hbias p, wideMant_widen_of_nan hmw⟩

end Sys2Proof.Machine
end

section
/-! What narrowing keeps, and what R85 derives from the nearest half: order, exact values, agreement of the two widths, and the
way back from a widened half (spec/42_narrowing.md R76 to R85). -/

namespace Sys2Proof.Machine

/-! ### Halves by sign and magnitude -/

theorem half_ext {p q : Half} (hs : sign p = sign q) (hm : mag p = mag q) : p = q := by
  rw [← packHalf_sign_mag p, hs, hm, packHalf_sign_mag]

theorem getLsbD_zero_eq_false_iff (h : Half) : h.getLsbD 0 = false ↔ mag h % 2 = 0 := by
  rw [← BitVec.testBit_toNat, Nat.testBit_zero, decide_eq_false_iff_not, mag_eq, magOf]
  omega

/-! ### NaNs and signs (R76, R85) -/

section Keeps

variable {ew mw : ℕ} (hmw : 10 < mw) (hbias : 26 ≤ biasOf ew) {fill : BitVec 10} (x : BitVec (1 + ew + mw))

theorem sign_narrowNaNWith (fill : BitVec 10) (mw : ℕ) (s : Bit) (m : ℕ) : sign (narrowNaNWith fill mw s m) = s := by
  rw [sign, narrowNaNWith, BitVec.extractLsb'_append_eq_of_le (by decide)]
  exact BitVec.extractLsb'_append_eq_left

include hmw in
/-- The ten kept bits are not all zero, or the filling mantissa stands in their place. -/
theorem isNaN_narrowNaNWith (hfill : fill ≠ 0) (s : Bit) {m : ℕ} (hm : m < 2 ^ mw) :
    isNaN (narrowNaNWith fill mw s m) := by
  have hkept : m >>> (mw - 10) < 2 ^ 10 := by
    rw [Nat.shiftRight_eq_div_pow, Nat.div_lt_iff_lt_mul (Nat.two_pow_pos _), ← Nat.pow_add, Nat.add_sub_cancel' hmw.le]
    exact hm
  have hexp : expf (narrowNaNWith fill mw s m) = 31 := by
    rw [expf, narrowNaNWith, BitVec.extractLsb'_append_eq_of_le le_rfl, Nat.sub_self, BitVec.extractLsb'_append_eq_right]
  rw [isNaN_iff_fields, expNat, hexp, mantNat, mant, narrowNaNWith, BitVec.extractLsb'_append_eq_right]
  refine ⟨rfl, fun hzero => ?_⟩
  split_ifs at hzero with hkept0
  · exact hfill (BitVec.eq_of_toNat_eq hzero)
  · rw [BitVec.toNat_ofNat, Nat.mod_eq_of_lt hkept] at hzero
    exact hkept0 hzero

/-- Bits below the kept ten do not count, wherever the mantissa's lowest bit stands. -/
theorem narrowNaNWith_mul_two_pow (fill : BitVec 10) (hmw : 10 ≤ mw) (k : ℕ) (s : Bit) (m : ℕ) :
    narrowNaNWith fill (mw + k) s (m * 2 ^ k) = narrowNaNWith fill mw s m := by
  have hkept : (m * 2 ^ k) >>> (mw + k - 10) = m >>> (mw - 10) := by
    rw [Nat.shiftRight_eq_div_pow, Nat.shiftRight_eq_div_pow, Nat.sub_add_comm hmw, Nat.pow_add,
      Nat.mul_div_mul_right _ _ (Nat.two_pow_pos k)]
  simp only [narrowNaNWith, hkept]

theorem wide_cases (x : BitVec (1 + ew + mw)) : wideNaN x ∨ wideInf x ∨ wideFinite x := by
  rw [wideNaN_iff, wideInf_iff, wideFinite_iff]
  tauto

theorem narrowWith_of_wideInf (fill : BitVec 10) {x : BitVec (1 + ew + mw)} (h : wideInf x) :
    narrowWith fill ew mw x = infHalf (wideSign x) :=
  have ⟨he, hm⟩ := wideInf_iff.mp h
  narrowWith_inf fill x he hm

theorem narrowWith_of_wideNaN (fill : BitVec 10) {x : BitVec (1 + ew + mw)} (h : wideNaN x) :
    narrowWith fill ew mw x = narrowNaNWith fill mw (wideSign x) (wideMant x) :=
  have ⟨he, hm⟩ := wideNaN_iff.mp h
  narrowWith_nan fill x he hm

include hmw hbias

theorem sign_narrowWith (fill : BitVec 10) : sign (narrowWith fill ew mw x) = wideSign x := by
  obtain hnan | hinf | hfin := wide_cases x
  · rw [narrowWith_of_wideNaN fill hnan, sign_narrowNaNWith]
  · rw [narrowWith_of_wideInf fill hinf, infHalf, sign_packHalf _ (by decide)]
  · exact sign_narrowWith_of_finite hmw hbias fill hfin

theorem isNaN_narrowWith_eq_false {x : BitVec (1 + ew + mw)} (fill : BitVec 10) (h : ¬wideNaN x) :
    isNaN (narrowWith fill ew mw x) = false := by
  rw [isNaN_eq_false_iff, ← mag_eq]
  obtain hinf | hfin := (wide_cases x).resolve_left h
  · rw [narrowWith_of_wideInf fill hinf, infHalf, mag_packHalf _ (by decide)]
  · have := mag_narrowWith_of_finite hmw hbias fill hfin
    have := magbits_le |valWide x|
    omega

theorem isNaN_narrowWith (hfill : fill ≠ 0) : isNaN (narrowWith fill ew mw x) = wideNaN x := by
  by_cases hnan : wideNaN x = true
  · rw [hnan, narrowWith_of_wideNaN fill hnan, isNaN_narrowNaNWith hmw hfill _ (wideMant_lt x)]
  · rw [isNaN_narrowWith_eq_false hmw hbias fill hnan, Bool.eq_false_iff.mpr hnan]

end Keeps

/-- Settles O35: the mantissa of a narrowed NaN is nonzero, and no other source reaches past the infinity pattern. -/
theorem narrowingKeepsNaNsForAnyFill : Obligations.NarrowingKeepsNaNsForAnyFill :=
  ⟨by decide, fun fill hfill =>
    ⟨fun x => ⟨isNaN_narrowWith (ew := 8) (mw := 23) (by decide) (by decide) x hfill,
        sign_narrowWith (ew := 8) (mw := 23) (by decide) (by decide) x fill⟩,
      fun x => ⟨isNaN_narrowWith (ew := 11) (mw := 52) (by decide) (by decide) x hfill,
        sign_narrowWith (ew := 11) (mw := 52) (by decide) (by decide) x fill⟩⟩⟩

/-- Settles O40: a finite source packs its sign and the magnitude bits, an infinity the infinity pattern. -/
theorem narrowingComputesMagbits : Obligations.NarrowingComputesMagbits := by
  refine narrows_of_narrowWith fun ew mw x hmw hbias => ⟨fun hfin => ?finite, toNat_narrowWith_of_inf _⟩
  obtain ⟨bits, hr, hbits⟩ := narrowWith_eq_packHalf_magbits hmw hbias Config.nanFill hfin
  have hle := magbits_le |valWide x|
  refine ⟨?_, magbits_nonneg (abs_nonneg _), hle⟩
  rw [hr, packHalf_toNat _ (by omega), ← hbits]
  push_cast
  rfl

/-! ### The nearest half -/

section Nearest

variable {ew mw : ℕ} (hmw : 10 < mw) (hbias : 26 ≤ biasOf ew) (fill : BitVec 10) {x : BitVec (1 + ew + mw)}

theorem valWide_eq_signFactor_mul_abs (x : BitVec (1 + ew + mw)) : valWide x = signFactor (wideSign x) * |valWide x| := by
  by_cases h0 : wideExp x = 0
  · rw [abs_valWide_of_exp_zero h0, valWide, if_pos h0, mul_assoc]
  · rw [abs_valWide_of_exp_ne_zero h0, valWide, if_neg h0, mul_assoc]
    push_cast
    rfl

/-- Of one sign, two values are as far apart as their magnitudes. -/
theorem abs_valWide_sub_valH {h : Half} (hs : sign h = wideSign x) : |valWide x - valH h| = |(|valWide x| - |valH h|)| := by
  conv_lhs => rw [valWide_eq_signFactor_mul_abs, valH_eq_signFactor_mul_abs, hs, ← mul_sub, abs_mul, abs_signFactor, one_mul]

theorem abs_valWide_add_valH {h : Half} (hs : sign h = wideSign x) : |valWide x + valH h| = |valWide x| + |valH h| := by
  conv_lhs => rw [valWide_eq_signFactor_mul_abs, valH_eq_signFactor_mul_abs, hs, ← mul_add, abs_mul, abs_signFactor, one_mul,
    abs_of_nonneg (by positivity)]

/-- A distance of magnitudes in units of `2^-24`. -/
theorem abs_sub_abs_valH (v : ℚ) (h : Half) : |v - (|valH h|)| = |v * 2 ^ (24 : ℤ) - scaledMag (mag h)| * 2 ^ (-24 : ℤ) := by
  have hunit : (2 : ℚ) ^ (24 : ℤ) * 2 ^ (-24 : ℤ) = 1 := by rw [← zpow_add₀ two_ne_zero, add_neg_cancel, zpow_zero]
  have hpos : (0 : ℚ) < 2 ^ (-24 : ℤ) := by positivity
  calc |v - (|valH h|)| = |(v * 2 ^ (24 : ℤ) - scaledMag (mag h)) * 2 ^ (-24 : ℤ)| := by
        rw [abs_valH_eq_scaledMag, sub_mul, mul_assoc, hunit, mul_one]
    _ = |v * 2 ^ (24 : ℤ) - scaledMag (mag h)| * 2 ^ (-24 : ℤ) := by rw [abs_mul, abs_of_pos hpos]

/-- Among magnitudes, those of halves included, the rounded one is nearest and even at a tie. -/
theorem magbits_nearest_abs_valH {v : ℚ} {r : Half} (hv : v < 65520) (hr : magbits v = mag r) (g : Half) :
    |v - (|valH r|)| ≤ |v - (|valH g|)| ∧ (|v - (|valH r|)| = |v - (|valH g|)| → |valH g| = |valH r| ∨ mag r % 2 = 0) := by
  have hpos : (0 : ℚ) < 2 ^ (-24 : ℤ) := by positivity
  obtain ⟨hle, htie⟩ := magbits_nearest hv hr (mag g)
  simp only [abs_sub_abs_valH, mul_le_mul_iff_left₀ hpos, mul_left_inj' hpos.ne']
  exact ⟨hle, fun heq => (htie heq).imp_left fun hg => by rw [abs_valH_eq_scaledMag, abs_valH_eq_scaledMag, hg]⟩

include hmw hbias in
theorem magbits_eq_mag_narrowWith (h : wideFinite x) : magbits |valWide x| = mag (narrowWith fill ew mw x) :=
  (mag_narrowWith_of_finite hmw hbias fill h).symm

include hmw hbias in
theorem narrowWith_nearest (hfin : wideFinite x) (hv : |valWide x| < 65520) (g : Half) :
    |valWide x - valH (narrowWith fill ew mw x)| ≤ |valWide x - valH g| ∧
      (|valWide x - valH (narrowWith fill ew mw x)| = |valWide x - valH g| →
        valH g = valH (narrowWith fill ew mw x) ∨ (narrowWith fill ew mw x).getLsbD 0 = false) := by
  have hr := magbits_eq_mag_narrowWith hmw hbias fill hfin
  have hs := sign_narrowWith hmw hbias x fill
  generalize narrowWith fill ew mw x = r at hr hs
  obtain ⟨hle, htie⟩ := magbits_nearest_abs_valH hv hr g
  have htriangle := abs_abs_sub_abs_le_abs_sub (valWide x) (valH g)
  have hdist := abs_valWide_sub_valH hs
  rw [getLsbD_zero_eq_false_iff]
  refine ⟨by linarith, fun heq => ?_⟩
  obtain habs | heven := htie (by linarith)
  case inr => exact .inr heven
  obtain hsame | hopposite := abs_eq_abs.mp habs
  case inl => exact .inl hsame
  -- `r` and `-r` are equally near, so the source or `r` is a zero
  rw [hopposite, sub_neg_eq_add, abs_valWide_add_valH hs, hdist] at heq
  obtain hx0 | hr0 : |valWide x| = 0 ∨ |valH r| = 0 := by
    obtain ⟨habs, -⟩ | ⟨habs, -⟩ := abs_cases (|valWide x| - |valH r|)
    · exact .inr (by linarith)
    · exact .inl (by linarith)
  · have hzero : magbits 0 = 0 := magbits_eq_zero le_rfl (by norm_num)
    rw [hx0, hzero] at hr
    exact .inr (by omega)
  · rw [hopposite, abs_eq_zero.mp hr0, neg_zero]
    exact .inl rfl

include hmw hbias in
theorem isFinite_narrowWith (hfin : wideFinite x) (hv : |valWide x| < 65520) : isFinite (narrowWith fill ew mw x) := by
  have := mag_narrowWith_of_finite hmw hbias fill hfin
  have := magbits_le_of_lt hv
  rw [isFinite_iff]
  omega

include hmw hbias in
/-- R85 item 5. -/
theorem narrowWith_eq_of_valH_eq (hfin : wideFinite x) {h : Half} (hh : isFinite h) (hs : sign h = wideSign x)
    (hv : valH h = valWide x) : narrowWith fill ew mw x = h := by
  refine half_ext ((sign_narrowWith hmw hbias x fill).trans hs.symm) ?_
  have hmag := mag_narrowWith_of_finite hmw hbias fill hfin
  rw [← hv, abs_valH_eq_scaledMag, magbits_scaledMag ((isFinite_iff h).mp hh)] at hmag
  exact_mod_cast hmag

end Nearest

/-- Settles O41, by `narrowWith_nearest`. -/
theorem narrowingIsNearestTiesToEven : Obligations.NarrowingIsNearestTiesToEven :=
  narrows_of_narrowWith fun _ _ x hmw hbias hfin hv =>
    ⟨isFinite_narrowWith hmw hbias _ hfin hv, sign_narrowWith hmw hbias x _,
      fun g _ => narrowWith_nearest hmw hbias _ hfin hv g⟩

/-- Settles O43: a half's value is a grid point, which is rounded to itself. -/
theorem narrowingIsExactWhenRepresentable : Obligations.NarrowingIsExactWhenRepresentable :=
  narrows_of_narrowWith fun _ _ _ hmw hbias hfin _ => narrowWith_eq_of_valH_eq hmw hbias _ hfin

/-! ### Order (R85 item 4) -/

/-- The value key of the half nearest to `v`. -/
def signedMagbits (v : ℚ) : ℤ := SignType.sign v * magbits |v|

theorem signedMagbits_neg (v : ℚ) : signedMagbits (-v) = -signedMagbits v := by
  rw [signedMagbits, signedMagbits, Left.sign_neg, abs_neg, SignType.coe_neg, neg_mul]

theorem signedMagbits_of_nonneg {v : ℚ} (h : 0 ≤ v) : signedMagbits v = magbits v := by
  obtain rfl | hpos := h.eq_or_lt
  · have hzero : magbits 0 = 0 := magbits_eq_zero le_rfl (by norm_num)
    rw [signedMagbits, abs_zero, hzero, mul_zero]
  · rw [signedMagbits, sign_pos hpos, SignType.coe_one, one_mul, abs_of_pos hpos]

theorem monotone_signedMagbits : Monotone signedMagbits := by
  refine monotone_of_odd_of_monotoneOn_nonneg signedMagbits_neg fun v hv v' hv' hle => ?_
  rw [signedMagbits_of_nonneg hv, signedMagbits_of_nonneg hv']
  exact monotoneOn_magbits hv hv' hle

theorem signedMagbits_le (v : ℚ) : signedMagbits v ≤ 0x7C00 :=
  calc signedMagbits v ≤ signedMagbits |v| := monotone_signedMagbits (le_abs_self v)
    _ = magbits |v| := signedMagbits_of_nonneg (abs_nonneg v)
    _ ≤ 0x7C00 := magbits_le _

theorem le_signedMagbits (v : ℚ) : -0x7C00 ≤ signedMagbits v := by
  have h := signedMagbits_le (-v)
  rw [signedMagbits_neg] at h
  omega

/-- The value key of the half an extended value narrows to. -/
def keyOfExt : ExtVal → ℤ
  | ⊥ => -0x7C00
  | (⊤ : WithTop ℚ) => 0x7C00
  | (v : ℚ) => signedMagbits v

theorem monotone_keyOfExt : Monotone keyOfExt := by
  refine WithBot.monotone_iff.mpr ⟨WithTop.monotone_iff.mpr ⟨monotone_signedMagbits, signedMagbits_le⟩, fun v => ?bot⟩
  cases v with
  | top => decide
  | coe v => exact le_signedMagbits v

section Order

variable {ew mw : ℕ} (hmw : 10 < mw) (hbias : 26 ≤ biasOf ew) (fill : BitVec 10)

include hmw hbias

/-- At a zero the sign does not reach the key. -/
theorem vkey_narrowWith_of_finite {x : BitVec (1 + ew + mw)} (h : wideFinite x) :
    vkey (narrowWith fill ew mw x) = signedMagbits (valWide x) := by
  rw [vkey, mag_narrowWith_of_finite hmw hbias fill h, isNegative, sign_narrowWith hmw hbias x fill,
    ← signedMagbits_of_nonneg (abs_nonneg _), valWide_eq_signFactor_mul_abs x, signFactor]
  by_cases hs : wideSign x = 1
  · rw [if_pos hs, if_pos (decide_eq_true hs), neg_one_mul, signedMagbits_neg, abs_neg, abs_abs]
  · rw [if_neg hs, if_neg (by simpa using hs), one_mul, abs_abs]

omit hmw hbias in
theorem vkey_infHalf (s : Bit) : vkey (infHalf s) = if s = 1 then -0x7C00 else 0x7C00 := by
  rw [vkey, isNegative, infHalf, sign_packHalf s (by decide), mag_packHalf s (by decide)]
  simp

theorem vkey_narrowWith {x : BitVec (1 + ew + mw)} (h : ¬wideNaN x) :
    vkey (narrowWith fill ew mw x) = keyOfExt (extWide x) := by
  rw [extWide]
  by_cases hinf : wideInf x = true
  · rw [if_pos hinf, narrowWith_of_wideInf fill hinf, vkey_infHalf]
    split <;> rfl
  · rw [if_neg hinf, vkey_narrowWith_of_finite hmw hbias fill (((wide_cases x).resolve_left h).resolve_left hinf)]
    rfl

theorem extH_narrowWith_mono {x x' : BitVec (1 + ew + mw)} (h : ¬wideNaN x) (h' : ¬wideNaN x')
    (hle : extWide x ≤ extWide x') : extH (narrowWith fill ew mw x) ≤ extH (narrowWith fill ew mw x') := by
  rw [extH_le_iff (isNaN_narrowWith_eq_false hmw hbias fill h) (isNaN_narrowWith_eq_false hmw hbias fill h'),
    ← vkey_eq_keyOf, ← vkey_eq_keyOf, vkey_narrowWith hmw hbias fill h, vkey_narrowWith hmw hbias fill h']
  exact monotone_keyOfExt hle

end Order

/-- Settles O42: the value key of the result is a monotone function of the extended value. -/
theorem narrowingIsMonotone : Obligations.NarrowingIsMonotone := by
  refine ⟨fun s s' h h' hle => ?float32, fun s s' h h' hle => ?float64⟩
  case float32 =>
    rw [← Bool.not_eq_true] at h h'
    exact ⟨_, _, exec_hnarS s, exec_hnarS s', isNaN_narrowWith_eq_false (by decide) (by decide) _ h,
      isNaN_narrowWith_eq_false (by decide) (by decide) _ h', extH_narrowWith_mono (by decide) (by decide) _ h h' hle⟩
  case float64 =>
    rw [← Bool.not_eq_true] at h h'
    exact ⟨_, _, exec_hnarD s, exec_hnarD s', isNaN_narrowWith_eq_false (by decide) (by decide) _ h,
      isNaN_narrowWith_eq_false (by decide) (by decide) _ h', extH_narrowWith_mono (by decide) (by decide) _ h h' hle⟩

/-! ### Agreement of the two widths (R85 item 6) -/

section Widths

variable {ew mw ew' mw' : ℕ} (fill : BitVec 10) {x : BitVec (1 + ew + mw)} {z : BitVec (1 + ew' + mw')}

theorem narrowWith_eq_of_finite (hmw : 10 < mw) (hbias : 26 ≤ biasOf ew) (hmw' : 10 < mw') (hbias' : 26 ≤ biasOf ew')
    (hs : wideSign z = wideSign x) (hx : wideFinite x) (hz : wideFinite z) (hv : valWide z = valWide x) :
    narrowWith fill ew mw x = narrowWith fill ew' mw' z := by
  obtain ⟨bits, hr, hbits⟩ := narrowWith_eq_packHalf_magbits hmw hbias fill hx
  obtain ⟨bits', hr', hbits'⟩ := narrowWith_eq_packHalf_magbits hmw' hbias' fill hz
  rw [hv, ← hbits, Nat.cast_inj] at hbits'
  rw [hr, hr', hs, hbits']

/-- A NaN keeps its ten top bits when its mantissa moves up by the difference of the widths. -/
theorem narrowWith_eq_of_allOnes {k : ℕ} (hmw : 10 ≤ mw) (hk : mw' = mw + k) (hs : wideSign z = wideSign x)
    (hx : wideExp x = onesOf ew) (hz : wideExp z = onesOf ew') (hm : wideMant z = wideMant x * 2 ^ k) :
    narrowWith fill ew mw x = narrowWith fill ew' mw' z := by
  subst hk
  by_cases hm0 : wideMant x = 0
  · have hm0' : wideMant z = 0 := by rw [hm, hm0, Nat.zero_mul]
    rw [narrowWith_inf fill x hx hm0, narrowWith_inf fill z hz hm0', hs]
  · have hm0' : wideMant z ≠ 0 := hm ▸ Nat.mul_ne_zero hm0 (Nat.two_pow_pos k).ne'
    rw [narrowWith_nan fill x hx hm0, narrowWith_nan fill z hz hm0', hm, narrowNaNWith_mul_two_pow fill hmw, hs]

end Widths

/-- Settles O44: finite sources of one value have the same magnitude bits, and all-ones exponents the same ten kept bits. -/
theorem narrowingWidthsAgree : Obligations.NarrowingWidthsAgree := by
  intro s s' hs hsame
  suffices h : narrowS (operandS s.a) = narrowD (operandD s'.a) from ⟨_, exec_hnarS s, h ▸ exec_hnarD s'⟩
  obtain ⟨hx, hz, hv⟩ | ⟨hx, hz, hm⟩ := hsame
  · exact narrowWith_eq_of_finite _ (by decide) (by decide) (by decide) (by decide) hs hx hz hv
  · exact narrowWith_eq_of_allOnes _ (by decide) rfl hs hx hz hm

/-! ### The way back from a widened half (R74 items 4, 6 and 7) -/

theorem narrowNaNWith_of_half (fill : BitVec 10) {h : Half} (he : expNat h = 31) (hm : mantNat h ≠ 0) :
    narrowNaNWith fill 10 (sign h) (mantNat h) = h := by
  have hexpf : expf h = 31 := BitVec.eq_of_toNat_eq he
  rw [narrowNaNWith, Nat.sub_self, Nat.shiftRight_zero, if_neg hm, mantNat, BitVec.ofNat_toNat, BitVec.setWidth_eq, ← hexpf]
  exact (eq_sign_append_expf_append_mant h).symm

theorem infHalf_of_half {h : Half} (he : expNat h = 31) (hm : mantNat h = 0) : infHalf (sign h) = h := by
  refine half_ext (sign_packHalf _ (by decide)) ?_
  rw [infHalf, mag_packHalf _ (by decide), mag_eq_fields, he, hm]

section RoundTrip

variable {ew mw : ℕ} (hmw : 10 < mw) (hbias : 26 ≤ biasOf ew)

include hmw hbias

/-- A finite half is exact both ways; an infinity or a NaN keeps its ten mantissa bits at the top. -/
theorem narrowWith_widen (fill : BitVec 10) (h : Half) : narrowWith fill ew mw (widen ew mw h) = h := by
  by_cases he : expNat h = 31
  case neg =>
    have hfin : isFinite h = true := by
      rw [isFinite_iff_not, isNaN_iff_fields, isInf_iff_fields]
      tauto
    have hwide : wideFinite (widen ew mw h) = true :=
      wideFinite_iff.mpr (mt (wideExp_widen_eq_onesOf_iff hbias h).mp he)
    exact narrowWith_eq_of_valH_eq hmw hbias fill hwide hfin (wideSign_widen ew mw h).symm (valWide_widen hmw hbias hfin).symm
  case pos =>
    have hones := wideExp_widen_of_allOnes ew mw he
    have hmant := wideMant_widen_of_allOnes (ew := ew) hmw he
    by_cases hm : mantNat h = 0
    · rw [narrowWith_inf fill _ hones (by rw [hmant, hm, Nat.zero_mul]), wideSign_widen, infHalf_of_half he hm]
    · have hmw10 : mw = 10 + (mw - 10) := by omega
      have hkept := narrowNaNWith_mul_two_pow fill le_rfl (mw - 10) (sign h) (mantNat h)
      rw [← hmw10] at hkept
      rw [narrowWith_nan fill _ hones (hmant ▸ Nat.mul_ne_zero hm (Nat.two_pow_pos _).ne'), hmant, wideSign_widen, hkept,
        narrowNaNWith_of_half fill he hm]

theorem widen_injective : Function.Injective (widen ew mw) :=
  Function.LeftInverse.injective (narrowWith_widen hmw hbias Config.nanFill)

end RoundTrip

/-- The float64 of a half has the float32's mantissa 29 places up and its exponent field rebiased by 1023 - 127. -/
theorem widenD_fields (h : Half) :
    wideMant (widen 11 52 h) = wideMant (widen 8 23 h) * 2 ^ 29 ∧
    wideExp (widen 11 52 h) = if wideExp (widen 8 23 h) = 0 then 0 else if wideExp (widen 8 23 h) = 255 then 2047
      else wideExp (widen 8 23 h) + 896 := by
  by_cases he : expNat h = 31
  · rw [wideMant_widen_of_allOnes (by decide) he, wideMant_widen_of_allOnes (by decide) he, wideExp_widen_of_allOnes 8 23 he,
      wideExp_widen_of_allOnes 11 52 he, Nat.mul_assoc]
    exact ⟨rfl, rfl⟩
  by_cases hzero : expNat h = 0 ∧ mantNat h = 0
  · obtain ⟨h0, hm⟩ := hzero
    rw [wideMant_widen_of_zero 8 23 h0 hm, wideMant_widen_of_zero 11 52 h0 hm, wideExp_widen_of_zero 8 23 h0 hm,
      wideExp_widen_of_zero 11 52 h0 hm]
    exact ⟨rfl, rfl⟩
  · obtain ⟨d, f, hd, hf, -, hw⟩ := widen_of_finite_of_ne_zero he hzero
    have hS : biasOf 8 = 127 := rfl
    have hD : biasOf 11 = 1023 := rfl
    rw [hw 8 23 (by decide), hw 11 52 (by decide), hS, hD,
      wideMant_packWide _ _ (shiftLeft_lt_two_pow (by decide) hf), wideMant_packWide _ _ (shiftLeft_lt_two_pow (by decide) hf),
      wideExp_packWide _ _ (by omega), wideExp_packWide _ _ (by omega), if_neg (by omega), if_neg (by omega),
      Nat.shiftLeft_eq, Nat.shiftLeft_eq, Nat.mul_assoc]
    exact ⟨rfl, by omega⟩

/-- Settles O31: narrowing takes back each of equal results, and the fields are compared category by category. -/
theorem wideningIsInjectiveAndConsistent : Obligations.WideningIsInjectiveAndConsistent := by
  intro s s'
  obtain ⟨hmant, hexp⟩ := widenD_fields (operandH s.a)
  have hsign : wideSign (widen 11 52 (operandH s.a)) = wideSign (widen 8 23 (operandH s.a)) := by
    rw [wideSign_widen, wideSign_widen]
  exact ⟨_, _, _, _, exec_hwidS s, exec_hwidS s', exec_hwidD s, exec_hwidD s',
    fun h => widen_injective (ew := 8) (mw := 23) (by decide) (by decide) h,
    fun h => widen_injective (ew := 11) (mw := 52) (by decide) (by decide) h, hsign, hmant, hexp⟩

theorem narrowS_widenS (h : Half) : narrowS (widenS h) = h :=
  narrowWith_widen (ew := 8) (mw := 23) (by decide) (by decide) Config.nanFill h

theorem narrowD_widenD (h : Half) : narrowD (widenD h) = h :=
  narrowWith_widen (ew := 11) (mw := 52) (by decide) (by decide) Config.nanFill h

/-- Settles O32: the wide value is read back from `a` as it stood on `y`, and `narrowWith_widen` applies. -/
theorem narrowingUndoesWidening : Obligations.NarrowingUndoesWidening := by
  refine fun s b => ⟨⟨_, exec_hwidS s, ?float32⟩, ⟨_, exec_hwidD s, ?float64⟩⟩
  case float32 =>
    have hread : operandS (zext64 (widenS (operandH s.a))) = widenS (operandH s.a) := extractLsb'_zext64 (by decide) _
    rw [exec_hnarS, State.drive_a, hread, narrowS_widenS]
    rfl
  case float64 =>
    rw [exec_hnarD, State.drive_a, operandD, narrowD_widenD]
    rfl

end Sys2Proof.Machine
end
